-- ==== Sys2Proof/Word.lean ====
section
/-! DEFINITION. The two word types of the hardware (00_scope.md R12: `byte` is 8 bits, `word` is 32
bits, every value unsigned). How a word is cut into bytes is in Machine/Operands.lean. -/

namespace Sys2Proof

/-- R12: a byte is 8 bits. -/
abbrev Byte := BitVec 8

/-- R12: a word is 32 bits; every register of the window is one word wide (R21). -/
abbrev Word := BitVec 32

end Sys2Proof
end

