-- ==== Sys2Proof/Config.lean ====
section
/-! DEFINITION. What one chip fixes and the spec leaves open (00_scope.md R8, R10;
93_implementation_defined.md part 1). Each constant has no body, so nothing proved of the model can
rest on its value. The constant tables SBOX and RCON, whose contents the spec does fix, are in
Machine/Field.lean. -/

namespace Sys2Proof

/-- R10, R57: the free value a host read of KEY, STATE, PHASE or RK returns while a command is
pending, "any 32-bit value".  The argument is the count of draws made so far, so two reads are
independent.  Assumption log 1. -/
opaque Config.draw : Nat → Word

/-- R8, R50: `AES_BASE`, where the platform maps the 256-byte window in the host's address space. -/
opaque Config.aesBase : Nat

/-- R8, R247: the open part of `LAT_<mnemonic>`, by opcode. -/
opaque Config.cyclesBeyondFirst : BitVec 4 → Nat

/-- R8, R247: `LAT_<mnemonic>`, at least one cycle and a function of the opcode alone, never of KEY or
STATE.  "No rule of this spec depends on any latency value", and no step reads it (log 6). -/
def Config.latency (opcode : BitVec 4) : Nat := Config.cyclesBeyondFirst opcode + 1

end Sys2Proof
end

