-- ==== Sys2Proof/Syntax.lean ====
section
/-! DEFINITION. The instructions of this hardware: the ten commands a host writes to CMD
(30_encoding.md R72), one constructor for each row of spec/opcode_table.json. -/

namespace Sys2Proof

/-- R72.  A command has no register operand and no immediate but ADDRK's round index (R71). -/
inductive Instr where
  /-- R190: complete without effect. -/
  | nop
  /-- R124: expand KEY into the round-key file. -/
  | expand
  /-- R173: expand KEY, then encrypt STATE in place. -/
  | encrypt
  /-- R141: SubBytes on STATE. -/
  | subbytes
  /-- R143: ShiftRows on STATE. -/
  | shiftrows
  /-- R145: MixColumns on STATE. -/
  | mixcolumns
  /-- R147: XOR round key `n` into STATE.  `n` is the 4-bit field RND of the command word (R70, R71);
  its legal values are 0..10 (WellFormed.lean). -/
  | addrk (n : BitVec 4)
  /-- R174: expand KEY and set the trace position to 0. -/
  | traceStart
  /-- R175: apply the next transform of the sequence. -/
  | step
  /-- R191: zero KEY, STATE, RK and PHASE, and clear KEY_VALID. -/
  | clear
  deriving DecidableEq, Repr

end Sys2Proof
end

