-- ==== Sys2Proof/WellFormed.lean ====
section
/-! DEFINITION. Which instruction terms the hardware has a command word for (30_encoding.md R71). -/

namespace Sys2Proof

/-- R71: ADDRK's round index is legal in 0..10; no other command has an operand. -/
def Instr.wellFormed : Instr → Bool
  | .nop => true
  | .expand => true
  | .encrypt => true
  | .subbytes => true
  | .shiftrows => true
  | .mixcolumns => true
  | .addrk n => decide (n ≤ 10)
  | .traceStart => true
  | .step => true
  | .clear => true

end Sys2Proof
end

