-- ==== Sys2Proof/Decode.lean ====
section
/-! DEFINITION. The error codes, the command decoder of 30_encoding.md R70 to R74 and the encoder of
R72.  Decoding is total: every 32-bit word is one instruction or one named rejection. -/

namespace Sys2Proof

/-- R201: the errors the register interface can record, in their priority order (R205).  Code 0, NONE,
is no error and codes 7..15 are never produced, so neither has a constructor. -/
inductive ErrorCode where
  /-- A host access that is not 4 bytes at a multiple of 4 (R53). -/
  | busAccess
  /-- A host write to KEY, STATE or CMD while a command is pending (R58). -/
  | busy
  /-- A reserved opcode, a nonzero reserved bit, or RND on a command other than ADDRK (R74). -/
  | illegalCmd
  /-- ADDRK with RND above 10 (R73). -/
  | badRound
  /-- ADDRK or STEP while KEY_VALID = 0 (R73). -/
  | noKey
  /-- STEP while PHASE = 40 (R73). -/
  | seqEnd
  deriving DecidableEq, Repr

/-- R201: the number recorded in STATUS.ERRCODE. -/
def ErrorCode.code : ErrorCode → BitVec 4
  | .busAccess => 1
  | .busy => 2
  | .illegalCmd => 3
  | .badRound => 4
  | .noKey => 5
  | .seqEnd => 6

/-! ### The fields of a command word (R70) -/

/-- R70: OP, bits [3:0]. -/
def opField (c : Word) : BitVec 4 := c.extractLsb' 0 4

/-- R70: RSV0, bits [7:4]. -/
def rsv0Field (c : Word) : BitVec 4 := c.extractLsb' 4 4

/-- R70, R71: RND, bits [11:8], an unsigned index taken without scaling. -/
def rndField (c : Word) : BitVec 4 := c.extractLsb' 8 4

/-- R70: RSV1, bits [31:12]. -/
def rsv1Field (c : Word) : BitVec 20 := c.extractLsb' 12 20

/-- R72: the opcode map; `none` for the reserved opcodes 0x9..0xE.  `n` is RND, which ADDRK alone
takes. -/
def opcodeMap (op n : BitVec 4) : Option Instr :=
  match op.toNat with
  | 0x0 => some .nop
  | 0x1 => some .expand
  | 0x2 => some .encrypt
  | 0x3 => some .subbytes
  | 0x4 => some .shiftrows
  | 0x5 => some .mixcolumns
  | 0x6 => some (.addrk n)
  | 0x7 => some .traceStart
  | 0x8 => some .step
  | 0xF => some .clear
  | _ => none

/-- R73, the checks that read the command word alone, in R73's order. -/
def decodeWord (c : Word) : Except ErrorCode Instr :=
  if rsv1Field c ≠ 0 ∨ rsv0Field c ≠ 0 then .error .illegalCmd
  else match opcodeMap (opField c) (rndField c) with
    | none => .error .illegalCmd
    | some i =>
      if opField c ≠ 6 ∧ rndField c ≠ 0 then .error .illegalCmd
      else if opField c = 6 ∧ rndField c > 10 then .error .badRound
      else .ok i

/-- R73, the checks that read KEY_VALID (`kv`) and PHASE (`p`): the error that turns the instruction
away, if any. -/
def Instr.stateError (i : Instr) (kv : Bool) (p : Fin 41) : Option ErrorCode :=
  match i with
  | .nop => none
  | .expand => none
  | .encrypt => none
  | .subbytes => none
  | .shiftrows => none
  | .mixcolumns => none
  | .addrk _ => if kv = false then some .noKey else none
  | .traceStart => none
  | .step => if kv = false then some .noKey else if p = 40 then some .seqEnd else none
  | .clear => none

/-- R73: `decode(c, kv, p)`.  `.ok i` is `Accepted`, with the instruction; `.error e` is
`Rejected(e)`. -/
def decodeCommand (c : Word) (kv : Bool) (p : Fin 41) : Except ErrorCode Instr :=
  match decodeWord c with
  | .error e => .error e
  | .ok i =>
    match i.stateError kv p with
    | some e => .error e
    | none => .ok i

/-- R72: the command word of an instruction. -/
def encode : Instr → Word
  | .nop => 0x00000000
  | .expand => 0x00000001
  | .encrypt => 0x00000002
  | .subbytes => 0x00000003
  | .shiftrows => 0x00000004
  | .mixcolumns => 0x00000005
  | .addrk n => 0x00000006 ||| (n.setWidth 32 <<< 8)
  | .traceStart => 0x00000007
  | .step => 0x00000008
  | .clear => 0x0000000F

/-- The command word of a table row's bits: the low `nbits` bits of `w`, all above them zero (R70: a
command is one 32-bit value, so there is no byte order to apply; log 11). -/
def tableCommand (nbits w : Nat) : Word := BitVec.ofNat 32 (w % 2 ^ nbits)

/-- The instruction the decoder reads from a row of spec/opcode_table.json whose bits are `w`. -/
def decodeTableWord (nbits w : Nat) : Option Instr := (decodeWord (tableCommand nbits w)).toOption

end Sys2Proof
end

