-- ==== Sys2Proof/Machine/State.lean ====
section
/-! DEFINITION. The state of one AES128-KSRE (10_state.md R20, R37), with the model's own fields for
what stands outside the hardware, the reasons a step can stop, and the state after reset (R36). -/

namespace Sys2Proof.Machine

/-- A group of four 32-bit registers that holds one 16-byte block: KEY0..KEY3, STATE0..STATE3, or one
round key.  Register `j` holds bytes 4j..4j+3 (R21, R23). -/
structure Block where
  w0 : Word
  w1 : Word
  w2 : Word
  w3 : Word
  deriving DecidableEq, Repr

/-- One happening in the total order of R59: a host transaction on the window, a host reset, or the
point at which the core's `Complete` step falls. -/
inductive Event where
  /-- R12: `MemRead(off, n)`, a read of `n` bytes at window offset `off`. -/
  | read (off : BitVec 8) (n : Nat)
  /-- R12: `MemWrite(off, n, v)`.  The value is the 32 bits of the data lines; an access with `n ≠ 4`
  is a bad access, which never looks at it (R53; log 8, 9). -/
  | write (off : BitVec 8) (n : Nat) (v : Word)
  /-- R230: the host action `Reset`. -/
  | reset
  /-- R81: the core takes its turn here. -/
  | complete
  deriving DecidableEq, Repr

/-- What a read transaction gave the host: `n` bytes holding `value`. -/
structure Reply where
  n : Nat
  value : Word
  deriving DecidableEq, Repr

/-- The state.  The fields from `key` to `irqEn` are R20's and R37's; the last three are the model's
own, for the bus outside the hardware and for R10's draws (assumption log 1, 2). -/
structure State where
  /-- KEY0..KEY3: the 16-byte root key (R25). -/
  key : Block
  /-- STATE0..STATE3: the 16-byte State, register `c` being column `c` (R24). -/
  st : Block
  /-- RK[0..43]: the round-key file (R26). -/
  rk : Vector Word 44
  /-- KEY_VALID: `rk` holds the expansion of `key` (R27). -/
  keyValid : Bool
  /-- PHASE: the trace position 0..40 (R30). -/
  phase : Fin 41
  /-- PENDING: the accepted command word in flight, if any (R32). -/
  pending : Option Word
  /-- STATUS.DONE (R28). -/
  done : Bool
  /-- STATUS.ERR (R28). -/
  err : Bool
  /-- STATUS.ERRCODE (R28, R201). -/
  errcode : BitVec 4
  /-- CTRL.IRQ_EN (R29). -/
  irqEn : Bool
  /-- The model's own: what happens next, in the order of R59. -/
  events : List Event
  /-- The model's own: the bus read data of the last read transaction, none before the first. -/
  reply : Option Reply
  /-- The model's own: how many draws (R57) have been made. -/
  draws : Nat
  deriving DecidableEq, Repr

/-- Why the machine stops.  No reason: "Nothing in this hardware traps, hangs or computes an undefined
result" (R11), so no constructor is declared and no step faults (log 12). -/
inductive Fault
  deriving DecidableEq, Repr

/-- Why the model gives no meaning. -/
inductive Refusal where
  /-- Raised by `exec` alone, for an instruction whose meaning is not written yet.  Safe: the model
  stops where the hardware goes on.  No arm of `exec` raises it now. -/
  | notModelled (mnemonic : String)
  deriving DecidableEq, Repr

/-- The block of sixteen zero bytes. -/
def Block.zero : Block := ⟨0, 0, 0, 0⟩

/-- R36: every register, flag and field is zero and nothing is pending.  The three fields of the
model's own start empty: no transaction waits, no read was made, no value was drawn (log 1, 2). -/
def State.reset : State where
  key := .zero
  st := .zero
  rk := Vector.replicate 44 0
  keyValid := false
  phase := 0
  pending := none
  done := false
  err := false
  errcode := 0
  irqEn := false
  events := []
  reply := none
  draws := 0

end Sys2Proof.Machine
end

