-- ==== Sys2Proof/Machine/Operands.lean ====
section
/-! DEFINITION. How words, blocks and the round-key file are read as bytes (00_scope.md R13, R14;
10_state.md R23, R24, R26).  Byte order is decided here and nowhere else. -/

namespace Sys2Proof.Machine

/-- R13: `word(b0, b1, b2, b3) = {b0, b1, b2, b3}`, byte 0 the most significant. -/
def word (b0 b1 b2 b3 : Byte) : Word := b0 ++ b1 ++ b2 ++ b3

/-- R13: `wbyte(w, k) = w[31-8k : 24-8k]`. -/
def wbyte (w : Word) (k : Fin 4) : Byte := w.extractLsb' (24 - 8 * k.val) 8

/-- Register `j` of a group of four (R23). -/
def Block.reg (b : Block) (j : Fin 4) : Word :=
  match j with
  | 0 => b.w0
  | 1 => b.w1
  | 2 => b.w2
  | 3 => b.w3

/-- The group with register `j` written. -/
def Block.setReg (b : Block) (j : Fin 4) (v : Word) : Block :=
  match j with
  | 0 => { b with w0 := v }
  | 1 => { b with w1 := v }
  | 2 => { b with w2 := v }
  | 3 => { b with w3 := v }

/-- R23: byte `k` of a 16-byte register group, `G.B[k] = wbyte(reg[G(k div 4)], k mod 4)`. -/
def Block.byte (b : Block) (k : Fin 16) : Byte :=
  wbyte (b.reg ⟨k.val / 4, by omega⟩) ⟨k.val % 4, by omega⟩

/-- R14, R24: the State cell at row `r` and column `c` is byte `4c + r`. -/
def Block.cell (b : Block) (r c : Fin 4) : Byte := b.byte ⟨4 * c.val + r.val, by omega⟩

/-- R23: the group whose byte `k` is `f k`. -/
def Block.ofBytes (f : Fin 16 → Byte) : Block :=
  ⟨word (f 0) (f 1) (f 2) (f 3), word (f 4) (f 5) (f 6) (f 7),
   word (f 8) (f 9) (f 10) (f 11), word (f 12) (f 13) (f 14) (f 15)⟩

/-- R26: round key `n` is `RK[4n], RK[4n+1], RK[4n+2], RK[4n+3]`. -/
def roundKey (rk : Vector Word 44) (n : Fin 11) : Block :=
  ⟨rk[4 * n.val], rk[4 * n.val + 1], rk[4 * n.val + 2], rk[4 * n.val + 3]⟩

/-- R26: `RKB(n, j) = wbyte(RK[4n + (j div 4)], j mod 4)`. -/
def roundKeyByte (rk : Vector Word 44) (n : Fin 11) (j : Fin 16) : Byte :=
  wbyte (rk[4 * n.val + j.val / 4]) ⟨j.val % 4, by omega⟩

/-- R71, R73: ADDRK's operand as a round index; `none` above 10, where the command is BAD_ROUND. -/
def roundIndex (n : BitVec 4) : Option (Fin 11) :=
  if h : n.toNat < 11 then some ⟨n.toNat, h⟩ else none

end Sys2Proof.Machine
end

