-- ==== Sys2Proof/Machine/Flags.lean ====
section
/-! DEFINITION. The trace label of a phase and the values STATUS, CTRL and PHASE read as
(10_state.md R28 to R30, 43_sequencer.md R170), with the interrupt line (R34, R207). -/

namespace Sys2Proof.Machine

/-- R170: the transform applied last, as PHASE.LAST names it. -/
inductive Kind where
  | none
  | subBytes
  | shiftRows
  | mixColumns
  | addRoundKey
  deriving DecidableEq, Repr

/-- R30, R170: the kind codes of PHASE.LAST. -/
def Kind.code : Kind → BitVec 3
  | .none => 0
  | .subBytes => 1
  | .shiftRows => 2
  | .mixColumns => 3
  | .addRoundKey => 4

/-- R170: the `m`-th of the four transforms of a main round, `m` in 0..3. -/
def mainRoundKind (m : Nat) : Kind :=
  match m with
  | 0 => .subBytes
  | 1 => .shiftRows
  | 2 => .mixColumns
  | _ => .addRoundKey

/-- R170: `label(p) = (round, kind)`, in the rule's closed form. -/
def label (p : Fin 41) : Fin 11 × Kind :=
  if p.val = 0 then (0, .none)
  else if p.val = 1 then (0, .addRoundKey)
  else if h : p.val ≤ 37 then
    (⟨(p.val - 2) / 4 + 1, by omega⟩, mainRoundKind ((p.val - 2) % 4))
  else if p.val = 38 then (10, .subBytes)
  else if p.val = 39 then (10, .shiftRows)
  else (10, .addRoundKey)

/-- R17, R28: `BUSY = (PENDING != none)`. -/
def busy (s : State) : Bool := s.pending.isSome

/-- R34, R207: the level of the interrupt line, `IRQ_EN & DONE`. -/
def irq (s : State) : Bool := s.irqEn && s.done

/-- R28: `{23'b0, IRQ, ERRCODE, ERR, KEY_VALID, DONE, BUSY}`. -/
def statusValue (s : State) : Word :=
  (0 : BitVec 23) ++ BitVec.ofBool (irq s) ++ s.errcode ++ BitVec.ofBool s.err
    ++ BitVec.ofBool s.keyValid ++ BitVec.ofBool s.done ++ BitVec.ofBool (busy s)

/-- R29, R54: `{31'b0, IRQ_EN}`. -/
def ctrlValue (s : State) : Word := (0 : BitVec 31) ++ BitVec.ofBool s.irqEn

/-- R30: `{16'b0, (p == 40), kind[2:0], round[3:0], 2'b0, p[5:0]}`. -/
def phaseValue (p : Fin 41) : Word :=
  (0 : BitVec 16) ++ BitVec.ofBool (p == 40) ++ (label p).2.code
    ++ BitVec.ofNat 4 (label p).1.val ++ (0 : BitVec 2) ++ BitVec.ofNat 6 p.val

end Sys2Proof.Machine
end

