-- ==== Sys2Proof/Machine/Ops.lean ====
section
/-! DEFINITION. The operations every agent shares: recording an error and rejecting a command
(60_exceptions.md R202, R203), completing one (30_encoding.md R81), issuing one (R80), the register
window (20_memory.md R50 to R58), the CTRL and STATUS writes (44_control.md R192, R193) and reset
(70_reset_and_hazards.md R230). -/

namespace Sys2Proof.Machine

/-- The outcome of a meaning or a step. -/
abbrev Result := Host.Outcome State Fault Refusal

/-! ### Errors and completion -/

/-- R202: `raise Error(code)`.  The first error since ERR was cleared is kept. -/
def raiseError (e : ErrorCode) (s : State) : State :=
  if s.err then s else { s with err := true, errcode := e.code }

/-- R81, the end of `Complete`: PENDING becomes `none` and DONE is set. -/
def finish (s : State) : State := { s with pending := none, done := true }

/-- R203: a command is rejected.  The error is recorded, DONE is set and nothing is pending
afterwards.  The hardware has no traps (R206); this is the whole of its error entry. -/
def reject (e : ErrorCode) (s : State) : State := finish (raiseError e s)

/-! ### The register window -/

/-- R21: what stands at a word slot of the window. -/
inductive Register where
  | key (j : Fin 4)
  | state (j : Fin 4)
  | cmd
  | status
  | ctrl
  | phase
  | rk (i : Fin 44)
  | reserved
  deriving DecidableEq, Repr

/-- R21, R51: the register at a window offset that is a multiple of 4. -/
def registerAt (off : BitVec 8) : Register :=
  if h : off.toNat < 0x10 then .key ⟨off.toNat / 4, by omega⟩
  else if h : off.toNat < 0x20 then .state ⟨(off.toNat - 0x10) / 4, by omega⟩
  else if off.toNat < 0x24 then .cmd
  else if off.toNat < 0x28 then .status
  else if off.toNat < 0x2C then .ctrl
  else if off.toNat < 0x30 then .phase
  else if off.toNat < 0x40 then .reserved
  else if h : off.toNat < 0xF0 then .rk ⟨(off.toNat - 0x40) / 4, by omega⟩
  else .reserved

/-- R53: an access is admitted when it is 4 bytes at a multiple of 4. -/
def admitted (off : BitVec 8) (n : Nat) : Bool := n == 4 && off.toNat % 4 == 0

/-- R54: the value of a register when BUSY = 0. -/
def Register.value (r : Register) (s : State) : Word :=
  match r with
  | .key j => s.key.reg j
  | .state j => s.st.reg j
  | .cmd => 0
  | .status => statusValue s
  | .ctrl => ctrlValue s
  | .phase => phaseValue s.phase
  | .rk i => s.rk[i]
  | .reserved => 0

/-- R57: the registers whose read is a draw while BUSY = 1. -/
def Register.drawnWhenBusy : Register → Bool
  | .key _ => true
  | .state _ => true
  | .cmd => false
  | .status => false
  | .ctrl => false
  | .phase => true
  | .rk _ => true
  | .reserved => false

/-- R53, R54, R57: `MemRead(off, n)`.  Its one effect on the hardware is the BUS_ACCESS error of a bad
access; the value goes out on the bus. -/
def busRead (off : BitVec 8) (n : Nat) (s : State) : State :=
  if admitted off n then
    if busy s && (registerAt off).drawnWhenBusy then
      { s with reply := some ⟨4, Config.draw s.draws⟩, draws := s.draws + 1 }
    else { s with reply := some ⟨4, (registerAt off).value s⟩ }
  else { raiseError .busAccess s with reply := some ⟨n, 0⟩ }

/-- R192: a write of `v` to CTRL. -/
def writeCtrl (v : Word) (s : State) : State := { s with irqEn := v.getLsbD 0 }

/-- R193: a write of `v` to STATUS.  Bit 1 clears DONE; bit 3 clears ERR and ERRCODE together. -/
def writeStatus (v : Word) (s : State) : State :=
  { s with
    done := s.done && !v.getLsbD 1
    err := s.err && !v.getLsbD 3
    errcode := if v.getLsbD 3 then 0 else s.errcode }

/-- R80: a write of `c` to CMD. -/
def issue (c : Word) (s : State) : State :=
  match s.pending with
  | some _ => raiseError .busy s
  | none =>
    match decodeCommand c s.keyValid s.phase with
    | .ok _ => { s with pending := some c }
    | .error e => reject e s

/-- R25, R55, R58: a write of `v` to KEY`j`. -/
def writeKey (j : Fin 4) (v : Word) (s : State) : State :=
  if busy s then raiseError .busy s
  else { s with key := s.key.setReg j v, keyValid := false }

/-- R55, R58: a write of `v` to STATE`j`; PHASE does not move. -/
def writeState (j : Fin 4) (v : Word) (s : State) : State :=
  if busy s then raiseError .busy s else { s with st := s.st.setReg j v }

/-- R55: an admitted write of `v` to a register.  Read-only and reserved places ignore it, with no
error. -/
def Register.write (r : Register) (v : Word) (s : State) : State :=
  match r with
  | .key j => writeKey j v s
  | .state j => writeState j v s
  | .cmd => issue v s
  | .status => writeStatus v s
  | .ctrl => writeCtrl v s
  | .phase => s
  | .rk _ => s
  | .reserved => s

/-- R53, R55: `MemWrite(off, n, v)`. -/
def busWrite (off : BitVec 8) (n : Nat) (v : Word) (s : State) : State :=
  if admitted off n then (registerAt off).write v s else raiseError .busAccess s

/-- R230, R232: `Reset`.  The hardware's own state becomes R36's; the transactions still to come, the
bus data already read and the count of draws are outside the hardware and stay. -/
def hardwareReset (s : State) : State :=
  { State.reset with events := s.events, reply := s.reply, draws := s.draws }

/-! ### The window in the host's address space -/

/-- R50: host address `AES_BASE + off` reaches offset `off` (log 10). -/
def hostAddress (off : BitVec 8) : Nat := Config.aesBase + off.toNat

/-- R50: the window offset a host address reaches, if it is in this instance's 256 bytes.  Any other
address reaches something else on the platform (R211, R212). -/
def windowOffset (a : Nat) : Option (BitVec 8) :=
  if Config.aesBase ≤ a ∧ a < Config.aesBase + 256 then some (BitVec.ofNat 8 (a - Config.aesBase))
  else none

end Sys2Proof.Machine
end

