-- ==== Sys2Proof/Machine/Control.lean ====
section
/-! DEFINITION. The control commands NOP and CLEAR (44_control.md R190, R191). -/

namespace Sys2Proof.Machine

/-- R190: nothing but the completion. -/
def execNop (s : State) : Result := .next (finish s)

/-- R191: KEY, STATE, RK and PHASE become zero and KEY_VALID is cleared; CTRL, ERR and ERRCODE stay. -/
def execClear (s : State) : Result :=
  .next (finish { s with
    key := .zero
    st := .zero
    rk := Vector.replicate 44 0
    keyValid := false
    phase := 0 })

end Sys2Proof.Machine
end

