-- ==== Sys2Proof/Machine/KeySchedule.lean ====
section
/-! DEFINITION. The key schedule and EXPAND (41_key_schedule.md R120 to R124). -/

namespace Sys2Proof.Machine

/-- R120: the four bytes rotated left by one place. -/
def rotWord (w : Word) : Word := word (wbyte w 1) (wbyte w 2) (wbyte w 3) (wbyte w 0)

/-- R121: each byte through the S-box. -/
def subWord (w : Word) : Word :=
  word (sbox (wbyte w 0)) (sbox (wbyte w 1)) (sbox (wbyte w 2)) (sbox (wbyte w 3))

/-- R122: RCON[j] into the first byte. -/
def rconMix (w : Word) (j : Nat) : Word := w ^^^ (rcon j ++ (0 : BitVec 24))

/-- R123: `T` for word `i`, from `prev = w[i-1]`. -/
def scheduleTemp (i : Nat) (prev : Word) : Word :=
  if i % 4 = 0 then rconMix (subWord (rotWord prev)) (i / 4) else prev

/-- R123's loop: the `fuel` words from `w[i]` on, where `a`, `b`, `c`, `d` are `w[i-4]` to
`w[i-1]`. -/
def expandFrom (fuel i : Nat) (a b c d : Word) : List Word :=
  match fuel with
  | 0 => []
  | fuel + 1 =>
    let w := a ^^^ scheduleTemp i d
    w :: expandFrom fuel (i + 1) b c d w

/-- R123: the loop gives one word for each pass. -/
theorem expandFrom_length (fuel i : Nat) (a b c d : Word) :
    (expandFrom fuel i a b c d).length = fuel := by
  induction fuel generalizing i a b c d with
  | zero => rfl
  | succ fuel ih => simp [expandFrom, ih]

/-- R123: `Expand(k)`, 44 words, the first four the key itself. -/
def expand (k : Block) : Vector Word 44 :=
  ⟨(k.w0 :: k.w1 :: k.w2 :: k.w3 :: expandFrom 40 4 k.w0 k.w1 k.w2 k.w3).toArray, by
    simp [expandFrom_length]⟩

/-- R124, R173, R174: RK becomes the whole expansion of KEY and KEY_VALID is set. -/
def loadSchedule (s : State) : State := { s with rk := expand s.key, keyValid := true }

/-- R124. -/
def execExpand (s : State) : Result := .next (finish (loadSchedule s))

end Sys2Proof.Machine
end

