-- ==== Sys2Proof/Machine/Rounds.lean ====
section
/-! DEFINITION. The four round transforms and their commands (42_round_transforms.md R140 to
R147). -/

namespace Sys2Proof.Machine

/-- R140: every byte through the S-box. -/
def subBytes (s : Block) : Block := .ofBytes fun k => sbox (s.byte k)

/-- R142: `ShiftRows(s)[4c + r] = s[4 * ((c + r) mod 4) + r]`, with `r = k mod 4` and
`c = k div 4`. -/
def shiftRows (s : Block) : Block :=
  .ofBytes fun k => s.byte ⟨4 * ((k.val / 4 + k.val % 4) % 4) + k.val % 4, by omega⟩

/-- R144: one column times the fixed matrix. -/
def mixColumn (w : Word) : Word :=
  let a0 := wbyte w 0
  let a1 := wbyte w 1
  let a2 := wbyte w 2
  let a3 := wbyte w 3
  word (gadd (gadd (gadd (gmul 2 a0) (gmul 3 a1)) a2) a3)
       (gadd (gadd (gadd a0 (gmul 2 a1)) (gmul 3 a2)) a3)
       (gadd (gadd (gadd a0 a1) (gmul 2 a2)) (gmul 3 a3))
       (gadd (gadd (gadd (gmul 3 a0) a1) a2) (gmul 2 a3))

/-- R144: each column on its own; column `c` is register STATE`c`. -/
def mixColumns (s : Block) : Block :=
  ⟨mixColumn s.w0, mixColumn s.w1, mixColumn s.w2, mixColumn s.w3⟩

/-- R146: the block XORed with a round key, register by register. -/
def addRoundKey (s k : Block) : Block :=
  ⟨s.w0 ^^^ k.w0, s.w1 ^^^ k.w1, s.w2 ^^^ k.w2, s.w3 ^^^ k.w3⟩

/-- R141. -/
def execSubbytes (s : State) : Result := .next (finish { s with st := subBytes s.st })

/-- R143. -/
def execShiftrows (s : State) : Result := .next (finish { s with st := shiftRows s.st })

/-- R145. -/
def execMixcolumns (s : State) : Result := .next (finish { s with st := mixColumns s.st })

/-- R147, with its errors in R73's order.  An ADDRK that was accepted passes both checks, since nothing
can change KEY_VALID while it is pending (R73); log 7. -/
def execAddrk (n : BitVec 4) (s : State) : Result :=
  match roundIndex n with
  | none => .next (reject .badRound s)
  | some r =>
    if s.keyValid then .next (finish { s with st := addRoundKey s.st (roundKey s.rk r) })
    else .next (reject .noKey s)

end Sys2Proof.Machine
end

