-- ==== Sys2Proof/Machine/Sequencer.lean ====
section
/-! DEFINITION. The round sequence, the cipher, ENCRYPT, TRACE_START and STEP (43_sequencer.md R170 to
R175). -/

namespace Sys2Proof.Machine

/-- R170: `T(p)` on a State, with the round keys of schedule `w`.  Phase 0 has no transform. -/
def transform (w : Vector Word 44) (p : Fin 41) (s : Block) : Block :=
  match (label p).2 with
  | .none => s
  | .subBytes => subBytes s
  | .shiftRows => shiftRows s
  | .mixColumns => mixColumns s
  | .addRoundKey => addRoundKey s (roundKey w (label p).1)

/-- R171: main round `r`. -/
def mainRound (w : Vector Word 44) (s : Block) (r : Fin 11) : Block :=
  addRoundKey (mixColumns (shiftRows (subBytes s))) (roundKey w r)

/-- R171: `Cipher(s, w)`: the whitening, main rounds 1 to 9, and the final round, which has no
MixColumns. -/
def cipher (s : Block) (w : Vector Word 44) : Block :=
  let whitened := addRoundKey s (roundKey w 0)
  let mixed := ([1, 2, 3, 4, 5, 6, 7, 8, 9] : List (Fin 11)).foldl (mainRound w) whitened
  addRoundKey (shiftRows (subBytes mixed)) (roundKey w 10)

/-- R173. -/
def execEncrypt (s : State) : Result :=
  let s := loadSchedule s
  .next (finish { s with st := cipher s.st s.rk, phase := 40 })

/-- R174. -/
def execTraceStart (s : State) : Result := .next (finish { loadSchedule s with phase := 0 })

/-- R175, with its errors in R73's order.  A STEP that was accepted passes both checks, since nothing
can change KEY_VALID or PHASE while it is pending (R73); log 7. -/
def execStep (s : State) : Result :=
  if s.keyValid then
    if h : s.phase.val + 1 < 41 then
      let p : Fin 41 := ⟨s.phase.val + 1, h⟩
      .next (finish { s with st := transform s.rk p s.st, phase := p })
    else .next (reject .seqEnd s)
  else .next (reject .noKey s)

end Sys2Proof.Machine
end

