-- ==== Sys2Proof/Machine/Dispatch.lean ====
section
/-! DEFINITION. One arm for each command of 30_encoding.md R72: what `Execute` and the completion of R81
do to the state. -/

namespace Sys2Proof.Machine

def exec (i : Instr) (s : State) : Host.Outcome State Fault Refusal :=
  match i with
  | .nop => Sys2Proof.Machine.execNop s
  | .expand => Sys2Proof.Machine.execExpand s
  | .encrypt => Sys2Proof.Machine.execEncrypt s
  | .subbytes => Sys2Proof.Machine.execSubbytes s
  | .shiftrows => Sys2Proof.Machine.execShiftrows s
  | .mixcolumns => Sys2Proof.Machine.execMixcolumns s
  | .addrk n => Sys2Proof.Machine.execAddrk n s
  | .traceStart => Sys2Proof.Machine.execTraceStart s
  | .step => Sys2Proof.Machine.execStep s
  | .clear => Sys2Proof.Machine.execClear s

end Sys2Proof.Machine
end

