-- ==== Sys2Proof/Machine/Agents.lean ====
section
/-! DEFINITION. The two agents of 00_scope.md R9, the host and the core, and whose turn it is
(20_memory.md R59). -/

namespace Sys2Proof.Machine

/-- R81: the core's `Complete`.  It is enabled exactly while a command is pending; with none pending the
core does nothing.  A pending word that decodes to no instruction cannot arise (R32); the model rejects
it as the CMD write would have (log 7). -/
def coreTurn (s : State) : Result :=
  match s.pending with
  | none => .next s
  | some c =>
    match decodeWord c with
    | .ok i => exec i s
    | .error e => .next (reject e s)

/-- R59: one happening, taken to its end before the next. -/
def happen (e : Event) (s : State) : Result :=
  match e with
  | .read off n => .next (busRead off n s)
  | .write off n v => .next (busWrite off n v s)
  | .reset => .next (hardwareReset s)
  | .complete => coreTurn s

/-- R59, R246: the first of the listed happenings.  When the host has nothing left to do, the core takes
its turn: a pending command is never withheld (log 2). -/
def turn (s : State) : Result :=
  match s.events with
  | [] => coreTurn s
  | e :: rest => happen e { s with events := rest }

/-- A state whose next turn is the core's, with `c` in PENDING (log 3). -/
def placeCommand (c : Word) (s : State) : State :=
  { s with pending := some c, events := .complete :: s.events }

end Sys2Proof.Machine
end

