-- ==== Sys2Proof/Machine/Step.lean ====
section
/-! DEFINITION. One step of the machine: one happening of the total order of 20_memory.md R59. -/

namespace Sys2Proof.Machine

/-- R59: one host transaction, one reset, or one turn of the core. -/
def step (s : State) : Host.Outcome State Fault Refusal := turn s

/-- The state whose very next step runs the command word `w` of `nbits` bits: the word is in PENDING, the
latch the core takes its command from (R62, R81), and the core is next (log 3). -/
def State.withFetchWord (s : State) (nbits w : Nat) : State := placeCommand (tableCommand nbits w) s

end Sys2Proof.Machine
end

