-- ==== Sys2Proof/Machine/HostProgram.lean ====
section
/-! DEFINITION. The host program forms of 30_encoding.md R82 and R83, as the happenings they stand for.
They are the host's, not the hardware's (decision D35). -/

namespace Sys2Proof.Machine

/-- R21: the window offset of CMD. -/
def offCmd : BitVec 8 := 0x20

/-- R21: the window offset of STATUS. -/
def offStatus : BitVec 8 := 0x24

/-- R21: the window offset of CTRL. -/
def offCtrl : BitVec 8 := 0x28

/-- R21: the window offset of PHASE. -/
def offPhase : BitVec 8 := 0x2C

/-- R21: the window offset of KEY`j`. -/
def offKey (j : Fin 4) : BitVec 8 := BitVec.ofNat 8 (4 * j.val)

/-- R21: the window offset of STATE`j`. -/
def offState (j : Fin 4) : BitVec 8 := BitVec.ofNat 8 (0x10 + 4 * j.val)

/-- R21: the window offset of RK`i`. -/
def offRk (i : Fin 44) : BitVec 8 := BitVec.ofNat 8 (0x40 + 4 * i.val)

/-- R82: `wr OFF, V`. -/
def wr (off : BitVec 8) (v : Word) : Event := .write off 4 v

/-- R82: `rd OFF`. -/
def rd (off : BitVec 8) : Event := .read off 4

/-- R82: `cmd MNEMONIC` and `cmd ADDRK n`. -/
def cmd (i : Instr) : Event := wr offCmd (encode i)

/-- R83: `wait`, as it happens when `polls` reads of STATUS find BUSY before `Complete` falls and the
next read finds it clear. -/
def wait (polls : Nat) : List Event :=
  List.replicate polls (rd offStatus) ++ [.complete, rd offStatus]

/-- R83: `run M`. -/
def run (i : Instr) (polls : Nat) : List Event := cmd i :: wait polls

/-- R83: `loadkey K`. -/
def loadkey (k : Block) : List Event :=
  [wr (offKey 0) k.w0, wr (offKey 1) k.w1, wr (offKey 2) k.w2, wr (offKey 3) k.w3]

/-- R83: `loadstate P`. -/
def loadstate (p : Block) : List Event :=
  [wr (offState 0) p.w0, wr (offState 1) p.w1, wr (offState 2) p.w2, wr (offState 3) p.w3]

/-- R83: `readstate`. -/
def readstate : List Event :=
  [rd (offState 0), rd (offState 1), rd (offState 2), rd (offState 3)]

/-- R83: `ackdone`. -/
def ackdone : Event := wr offStatus 0x00000002

/-- R83: `ackerr`. -/
def ackerr : Event := wr offStatus 0x00000008

/-- R83: `encrypt_block K, P`. -/
def encryptBlock (k p : Block) (polls : Nat) : List Event :=
  loadkey k ++ loadstate p ++ run .encrypt polls ++ readstate

end Sys2Proof.Machine
end

