-- ==== Sys2Proof/Safety.lean ====
section
/-! DEFINITION. What holds of every state a run reaches (10_state.md R27, R37), and the words the
statements use for what a step is about to do. -/

namespace Sys2Proof.Machine

/-- R37's invariants, and R27's meaning of KEY_VALID.  R37's `phase <= 40` is part of the type of
`State.phase`. -/
structure StateInv (s : State) : Prop where
  /-- R37: `err = false -> errcode = 0`. -/
  errcode_zero : s.err = false → s.errcode = 0
  /-- R37: `errcode <= 6`. -/
  errcode_le : s.errcode ≤ 6
  /-- R37: `pending = some c -> decode(c) is accepted`. -/
  pending_accepted : ∀ c, s.pending = some c → ∃ i, decodeCommand c s.keyValid s.phase = .ok i
  /-- R27: KEY_VALID says that RK holds the expansion of KEY (log 13). -/
  schedule_valid : s.keyValid = true → s.rk = expand s.key

/-- The next step is the core's turn: `Complete` falls here in the order of R59, or the host has nothing
left to do (log 2). -/
def coreNext (s : State) : Prop := s.events = [] ∨ ∃ rest, s.events = .complete :: rest

/-- The next step is the host's reset (R230). -/
def resetNext (s : State) : Prop := ∃ rest, s.events = .reset :: rest

/-- The next step is an admitted host write of `v` at offset `off` (R53). -/
def writeNext (s : State) (off : BitVec 8) (v : Word) : Prop :=
  off.toNat % 4 = 0 ∧ ∃ rest, s.events = .write off 4 v :: rest

/-- The next step is the core's, and it executes the pending command `i` (R81). -/
def completes (s : State) (i : Instr) : Prop :=
  coreNext s ∧ ∃ c, s.pending = some c ∧ decodeWord c = .ok i

/-- The next step is a host transaction, neither a reset nor the core's turn (R12). -/
def transactionNext (s : State) : Prop :=
  (∃ off n rest, s.events = .read off n :: rest) ∨ (∃ off n v rest, s.events = .write off n v :: rest)

/-- R202: ERRCODE after `raise Error` with number `code`: the first error is kept. -/
def firstError (s : State) (code : BitVec 4) : BitVec 4 := if s.err then s.errcode else code

/-- R170: the phases 1..40 in order. -/
def phases : List (Fin 41) := (List.finRange 41).tail

/-- R148: the inverse of MixColumns on one column, by the matrix
`[[14,11,13,9],[9,14,11,13],[13,9,14,11],[11,13,9,14]]`.  No command uses it. -/
def invMixColumn (w : Word) : Word :=
  let a0 := wbyte w 0
  let a1 := wbyte w 1
  let a2 := wbyte w 2
  let a3 := wbyte w 3
  word (gmul 14 a0 ^^^ gmul 11 a1 ^^^ gmul 13 a2 ^^^ gmul 9 a3)
       (gmul 9 a0 ^^^ gmul 14 a1 ^^^ gmul 11 a2 ^^^ gmul 13 a3)
       (gmul 13 a0 ^^^ gmul 9 a1 ^^^ gmul 14 a2 ^^^ gmul 11 a3)
       (gmul 11 a0 ^^^ gmul 13 a1 ^^^ gmul 9 a2 ^^^ gmul 14 a3)

end Sys2Proof.Machine
end

