-- ==== Sys2Proof/Certificates/Slice0/Obligations.lean ====
section
/-! DEFINITION. The statements for the provers: what the commands, the register window, the errors, reset
and the whole machine do, rule by rule of spec/. -/

open Sys2Proof Sys2Proof.Machine

/-! ### Encoding (30_encoding.md) -/

/-- R72, R73: a word decodes to an instruction exactly when it is that well-formed instruction's word.
So decoding an encoded instruction gives it back for every operand the encoding admits, and no bit of an
accepted word is dropped. -/
def Obligations.DecodeIffEncode : Prop :=
  ∀ (c : Word) (i : Instr), decodeWord c = .ok i ↔ (i.wellFormed = true ∧ c = encode i)

/-- R72: some command words, written out from the rule's list, and the instructions they stand for. -/
def Obligations.ListedWordsDecode : Prop :=
  decodeWord 0x00000000 = .ok .nop ∧ decodeWord 0x00000001 = .ok .expand ∧
  decodeWord 0x00000002 = .ok .encrypt ∧ decodeWord 0x00000005 = .ok .mixcolumns ∧
  decodeWord 0x00000006 = .ok (.addrk 0) ∧ decodeWord 0x00000A06 = .ok (.addrk 10) ∧
  decodeWord 0x00000008 = .ok .step ∧ decodeWord 0x0000000F = .ok .clear

/-- R73: the checks of `decode(c, kv, p)`, in the rule's order: the first that fails decides the
rejection, and a word that fails none is accepted. -/
def Obligations.DecodeFollowsCheckOrder : Prop :=
  ∀ (c : Word) (kv : Bool) (p : Fin 41) (e : ErrorCode),
    decodeCommand c kv p = .error e ↔
      (if c.extractLsb' 12 20 ≠ 0 ∨ c.extractLsb' 4 4 ≠ 0 then some .illegalCmd
       else if 0x9 ≤ c.extractLsb' 0 4 ∧ c.extractLsb' 0 4 ≤ 0xE then some .illegalCmd
       else if c.extractLsb' 0 4 ≠ 0x6 ∧ c.extractLsb' 8 4 ≠ 0 then some .illegalCmd
       else if c.extractLsb' 0 4 = 0x6 ∧ 10 < c.extractLsb' 8 4 then some .badRound
       else if (c.extractLsb' 0 4 = 0x6 ∨ c.extractLsb' 0 4 = 0x8) ∧ kv = false then some .noKey
       else if c.extractLsb' 0 4 = 0x8 ∧ p = 40 then some .seqEnd
       else none) = some e

/-- R74: the words of each illegal class are rejected with ILLEGAL_CMD whatever KEY_VALID and PHASE
are, and ADDRK with RND in 11..15 with BAD_ROUND. -/
def Obligations.IllegalWordsRejected : Prop :=
  ∀ (c : Word) (kv : Bool) (p : Fin 41),
    (c.extractLsb' 12 20 ≠ 0 → decodeCommand c kv p = .error .illegalCmd) ∧
    (c.extractLsb' 4 4 ≠ 0 → decodeCommand c kv p = .error .illegalCmd) ∧
    (0x9 ≤ c.extractLsb' 0 4 → c.extractLsb' 0 4 ≤ 0xE → decodeCommand c kv p = .error .illegalCmd) ∧
    (c.extractLsb' 8 4 ≠ 0 → c.extractLsb' 0 4 ≠ 0x6 → decodeCommand c kv p = .error .illegalCmd) ∧
    (∀ n : BitVec 4, 10 < n → c = 0x00000006 ||| (n.setWidth 32 <<< 8) →
      decodeCommand c kv p = .error .badRound)

/-! ### Issue and completion (30_encoding.md R80, R81) -/

/-- R80: the three outcomes of a CMD write.  Accepted: PENDING holds the word and nothing else changes,
DONE included.  Rejected: the error is recorded and DONE is set.  While a command is pending: a BUSY
error and nothing else.  The last clause is the rejection of the illegal words (R74) with the number
ILLEGAL_CMD is recorded as, 3 (R201): DONE is set and nothing else changes. -/
def Obligations.CmdWriteIssues : Prop :=
  ∀ (s : State) (rest : List Event) (c : Word), s.events = .write 0x20 4 c :: rest →
    (∀ d, s.pending = some d →
      step s = .next { s with events := rest, err := true, errcode := firstError s 2 }) ∧
    (s.pending = none → ∀ i, decodeCommand c s.keyValid s.phase = .ok i →
      step s = .next { s with events := rest, pending := some c }) ∧
    (s.pending = none → ∀ e, decodeCommand c s.keyValid s.phase = .error e →
      step s = .next
        { s with events := rest, err := true, errcode := firstError s e.code, done := true }) ∧
    (s.pending = none →
      (c.extractLsb' 12 20 ≠ 0 ∨ c.extractLsb' 4 4 ≠ 0 ∨
        (0x9 ≤ c.extractLsb' 0 4 ∧ c.extractLsb' 0 4 ≤ 0xE) ∨
        (c.extractLsb' 8 4 ≠ 0 ∧ c.extractLsb' 0 4 ≠ 0x6)) →
      step s = .next { s with events := rest, err := true, errcode := firstError s 3, done := true })

/-- R81: when the core's turn comes, the step is the meaning of the pending word's instruction, at that
state.  When the turn comes is the model's choice (assumption log 2): where `.complete` stands first in
the list of happenings, and when that list is empty; a turn with nothing pending then leaves the state. -/
def Obligations.StepRunsPendingCommand : Prop :=
  (∀ (s : State) (c : Word) (i : Instr), s.events = [] → s.pending = some c → decodeWord c = .ok i →
    step s = exec i s) ∧
  (∀ (s : State) (rest : List Event) (c : Word) (i : Instr), s.events = .complete :: rest →
    s.pending = some c → decodeWord c = .ok i → step s = exec i { s with events := rest }) ∧
  (∀ s : State, s.events = [] → s.pending = none → step s = .next s) ∧
  (∀ (s : State) (rest : List Event), s.events = .complete :: rest → s.pending = none →
    step s = .next { s with events := rest })

/-- R80, R81: a command word written to CMD and accepted, and then completed, is the meaning of its
instruction, run from the state the write found. -/
def Obligations.IssueThenCompleteRunsInstr : Prop :=
  ∀ (s : State) (rest : List Event) (i : Instr), s.pending = none → i.wellFormed = true →
    i.stateError s.keyValid s.phase = none → s.events = cmd i :: .complete :: rest →
    Host.Core.run core 2 s = exec i { s with events := rest, pending := some (encode i) }

/-- R81, R200: in a state that meets the invariants, a pending command completes with no error:
nothing is pending afterwards, DONE is set, and ERR and ERRCODE are as they were. -/
def Obligations.AcceptedCommandNeverFails : Prop :=
  ∀ (s : State) (c : Word), StateInv s → coreNext s → s.pending = some c →
    ∃ t, step s = .next t ∧ t.pending = none ∧ t.done = true ∧ t.err = s.err ∧
      t.errcode = s.errcode ∧ t.irqEn = s.irqEn

/-! ### The commands: result and frame in one equation -/

/-- R190: NOP does nothing but complete. -/
def Obligations.NopOnlyCompletes : Prop :=
  ∀ s : State, exec .nop s = .next { s with pending := none, done := true }

/-- R123, R124, R125: EXPAND writes RK and KEY_VALID and nothing else; RK starts with the key, and every
later word follows the rule's recurrence. -/
def Obligations.ExpandFollowsRecurrence : Prop :=
  ∀ s : State, ∃ w : Vector Word 44,
    exec .expand s = .next { s with rk := w, keyValid := true, pending := none, done := true } ∧
    w[0] = s.key.w0 ∧ w[1] = s.key.w1 ∧ w[2] = s.key.w2 ∧ w[3] = s.key.w3 ∧
    ∀ (i : Nat) (_ : 4 ≤ i) (_ : i < 44),
      w[i] = w[i - 4] ^^^
        (if i % 4 = 0 then rconMix (subWord (rotWord w[i - 1])) (i / 4) else w[i - 1])

/-- R120, R121, R122: the three word functions of the key schedule, on every word, with the rules'
examples. -/
def Obligations.ScheduleWordFunctions : Prop :=
  (∀ w : Word, rotWord w = (w.extractLsb' 0 24 ++ w.extractLsb' 24 8 : BitVec (24 + 8))) ∧
  (∀ (w : Word) (k : Fin 4), wbyte (subWord w) k = sbox (wbyte w k)) ∧
  (∀ (w : Word) (j : Nat), wbyte (rconMix w j) 0 = wbyte w 0 ^^^ rcon j ∧
    ∀ k : Fin 4, k ≠ 0 → wbyte (rconMix w j) k = wbyte w k) ∧
  rotWord 0x0c0d0e0f = 0x0d0e0f0c ∧ subWord 0x0d0e0f0c = 0xd7ab76fe ∧
  rconMix 0xd7ab76fe 1 = 0xd6ab76fe

/-- R140, R141: SUBBYTES replaces every byte of STATE by its S-box entry and changes nothing else. -/
def Obligations.SubbytesReplacesEveryByte : Prop :=
  ∀ s : State, ∃ b : Block,
    exec .subbytes s = .next { s with st := b, pending := none, done := true } ∧
    ∀ k : Fin 16, b.byte k = sbox (s.st.byte k)

/-- R142, R143: SHIFTROWS rotates row `r` of STATE left by `r` places and changes nothing else; the
same as the rule's list of source bytes. -/
def Obligations.ShiftrowsRotatesRows : Prop :=
  ∀ s : State, ∃ b : Block,
    exec .shiftrows s = .next { s with st := b, pending := none, done := true } ∧
    (∀ r c : Fin 4, b.cell r c = s.st.cell r (c + r)) ∧
    (List.finRange 16).map b.byte =
      ([0, 5, 10, 15, 4, 9, 14, 3, 8, 13, 2, 7, 12, 1, 6, 11] : List (Fin 16)).map s.st.byte

/-- R144, R145: MIXCOLUMNS multiplies every column of STATE by the fixed matrix and changes nothing
else. -/
def Obligations.MixcolumnsMultipliesColumns : Prop :=
  ∀ s : State, ∃ b : Block,
    exec .mixcolumns s = .next { s with st := b, pending := none, done := true } ∧
    ∀ c : Fin 4,
      b.cell 0 c = gmul 2 (s.st.cell 0 c) ^^^ gmul 3 (s.st.cell 1 c) ^^^ s.st.cell 2 c ^^^ s.st.cell 3 c ∧
      b.cell 1 c = s.st.cell 0 c ^^^ gmul 2 (s.st.cell 1 c) ^^^ gmul 3 (s.st.cell 2 c) ^^^ s.st.cell 3 c ∧
      b.cell 2 c = s.st.cell 0 c ^^^ s.st.cell 1 c ^^^ gmul 2 (s.st.cell 2 c) ^^^ gmul 3 (s.st.cell 3 c) ∧
      b.cell 3 c = gmul 3 (s.st.cell 0 c) ^^^ s.st.cell 1 c ^^^ s.st.cell 2 c ^^^ gmul 2 (s.st.cell 3 c)

/-- R146, R147: with a valid schedule, ADDRK n for n in 0..10 XORs round key n into STATE byte for byte
and changes nothing else. -/
def Obligations.AddrkXorsRoundKey : Prop :=
  ∀ (s : State) (n : BitVec 4) (r : Fin 11), n.toNat = r.val → s.keyValid = true →
    ∃ b : Block,
      exec (.addrk n) s = .next { s with st := b, pending := none, done := true } ∧
      ∀ k : Fin 16, b.byte k = s.st.byte k ^^^ roundKeyByte s.rk r k

/-- R171, R173: ENCRYPT expands KEY into RK, sets KEY_VALID, applies T(1) to T(40) of the new schedule
to STATE in order, leaves PHASE at 40, and changes nothing else. -/
def Obligations.EncryptAppliesFortyTransforms : Prop :=
  ∀ s : State,
    exec .encrypt s = .next { s with
      rk := expand s.key
      keyValid := true
      st := phases.foldl (fun b p => transform (expand s.key) p b) s.st
      phase := 40
      pending := none
      done := true }

/-- R174: TRACE_START expands KEY into RK, sets KEY_VALID and moves PHASE to 0; STATE and all else
stay. -/
def Obligations.TraceStartExpandsAndRewinds : Prop :=
  ∀ s : State, exec .traceStart s = .next { s with
    rk := expand s.key, keyValid := true, phase := 0, pending := none, done := true }

/-- R170, R175: STEP with a valid schedule and PHASE below 40 moves PHASE to the next phase and applies
to STATE the transform the rule's table gives that phase; nothing else changes. -/
def Obligations.StepAppliesNextTransform : Prop :=
  ∀ (s : State) (p : Fin 41), s.keyValid = true → p.val = s.phase.val + 1 →
    ∃ b : Block,
      exec .step s = .next { s with st := b, phase := p, pending := none, done := true } ∧
      (p.val % 4 = 1 ∨ p.val = 40 → b = addRoundKey s.st (roundKey s.rk ⟨p.val / 4, by omega⟩)) ∧
      (p.val % 4 = 2 → b = subBytes s.st) ∧
      (p.val % 4 = 3 → b = shiftRows s.st) ∧
      (p.val % 4 = 0 → p.val ≠ 40 → b = mixColumns s.st)

/-- R191: CLEAR zeroes KEY, STATE, RK and PHASE and clears KEY_VALID; CTRL, ERR and ERRCODE stay. -/
def Obligations.ClearZeroisesKeyAndState : Prop :=
  ∀ s : State, exec .clear s = .next { s with
    key := ⟨0, 0, 0, 0⟩, st := ⟨0, 0, 0, 0⟩, rk := Vector.replicate 44 0, keyValid := false, phase := 0,
    pending := none, done := true }

/-- R73, R147, R175: where an ADDRK or a STEP written to CMD is turned away.  BAD_ROUND comes before
NO_KEY and NO_KEY before SEQ_END; STATE, PHASE and all else but the error and DONE stay. -/
def Obligations.AddrkAndStepTurnedAway : Prop :=
  (∀ (s : State) (rest : List Event) (n : BitVec 4), s.pending = none → 10 < n →
    s.events = cmd (.addrk n) :: rest →
    step s = .next { s with events := rest, err := true, errcode := firstError s 4, done := true }) ∧
  (∀ (s : State) (rest : List Event) (n : BitVec 4), s.pending = none → n ≤ 10 →
    s.keyValid = false → s.events = cmd (.addrk n) :: rest →
    step s = .next { s with events := rest, err := true, errcode := firstError s 5, done := true }) ∧
  (∀ (s : State) (rest : List Event), s.pending = none → s.keyValid = false →
    s.events = cmd .step :: rest →
    step s = .next { s with events := rest, err := true, errcode := firstError s 5, done := true }) ∧
  (∀ (s : State) (rest : List Event), s.pending = none → s.keyValid = true → s.phase = 40 →
    s.events = cmd .step :: rest →
    step s = .next { s with events := rest, err := true, errcode := firstError s 6, done := true })

/-- The model's choice (assumption log 7): executed in a state where the CMD write would have turned it
away, an ADDRK or a STEP takes that same rejection and has no other effect. -/
def Obligations.ExecRepeatsIssueChecks : Prop :=
  (∀ (s : State) (n : BitVec 4), 10 < n →
    exec (.addrk n) s = .next
      { s with err := true, errcode := firstError s 4, done := true, pending := none }) ∧
  (∀ (s : State) (n : BitVec 4), n ≤ 10 → s.keyValid = false →
    exec (.addrk n) s = .next
      { s with err := true, errcode := firstError s 5, done := true, pending := none }) ∧
  (∀ s : State, s.keyValid = false →
    exec .step s = .next
      { s with err := true, errcode := firstError s 5, done := true, pending := none }) ∧
  (∀ s : State, s.keyValid = true → s.phase = 40 →
    exec .step s = .next
      { s with err := true, errcode := firstError s 6, done := true, pending := none })

/-! ### The register window (20_memory.md) -/

/-- R54: what an admitted read returns at every offset with no command pending; the read changes
nothing (the reply and the list of happenings are the bus's). -/
def Obligations.ReadReturnsRegister : Prop :=
  ∀ (s : State) (rest : List Event) (off : BitVec 8), s.events = .read off 4 :: rest →
    s.pending = none → off.toNat % 4 = 0 →
    ∃ v : Word, step s = .next { s with events := rest, reply := some ⟨4, v⟩ } ∧
      (∀ j : Fin 4, off.toNat = 4 * j.val → v = s.key.reg j) ∧
      (∀ j : Fin 4, off.toNat = 0x10 + 4 * j.val → v = s.st.reg j) ∧
      (off.toNat = 0x20 → v = 0) ∧
      (off.toNat = 0x24 → v = statusValue s) ∧
      (off.toNat = 0x28 → v = ctrlValue s) ∧
      (off.toNat = 0x2C → v = phaseValue s.phase) ∧
      (∀ i : Fin 44, off.toNat = 0x40 + 4 * i.val → v = s.rk[i]) ∧
      ((0x30 ≤ off.toNat ∧ off.toNat < 0x40) ∨ 0xF0 ≤ off.toNat → v = 0)

/-- R50: host address `AES_BASE + off` reaches offset `off`.  The model's choice (assumption log 10):
addresses are natural numbers that have no end and do not wrap, and one outside the 256 bytes from
`AES_BASE` reaches no offset. -/
def Obligations.HostAddressReachesOffset : Prop :=
  (∀ off : BitVec 8, windowOffset (Config.aesBase + off.toNat) = some off) ∧
  ∀ a : Nat, a < Config.aesBase ∨ Config.aesBase + 256 ≤ a → windowOffset a = none

/-- R13, R14, R23, R24, R26: byte 0 of a word is the most significant, a register group and a round key
hold their bytes four to a register in that order, and the cell at row `r` and column `c` is byte
`4c + r`. -/
def Obligations.RegistersHoldBytesInOrder : Prop :=
  (∀ b0 b1 b2 b3 : Byte, (word b0 b1 b2 b3).extractLsb' 24 8 = b0 ∧
    (word b0 b1 b2 b3).extractLsb' 16 8 = b1 ∧ (word b0 b1 b2 b3).extractLsb' 8 8 = b2 ∧
    (word b0 b1 b2 b3).extractLsb' 0 8 = b3) ∧
  (∀ (b : Block) (j : Fin 4), b.reg j =
    word (b.byte ⟨4 * j.val, by omega⟩) (b.byte ⟨4 * j.val + 1, by omega⟩)
      (b.byte ⟨4 * j.val + 2, by omega⟩) (b.byte ⟨4 * j.val + 3, by omega⟩)) ∧
  (∀ (b : Block) (r c : Fin 4), b.cell r c = b.byte ⟨4 * c.val + r.val, by omega⟩) ∧
  (∀ (rk : Vector Word 44) (n : Fin 11) (j : Fin 16),
    roundKeyByte rk n j = (roundKey rk n).byte j) ∧
  ∀ k : Fin 16, (⟨0x00010203, 0x04050607, 0x08090a0b, 0x0c0d0e0f⟩ : Block).byte k = BitVec.ofNat 8 k.val

/-- R57: while a command is pending, STATUS and CTRL read exactly, CMD and the reserved slots read
zero, and a read of KEY, STATE, PHASE or RK returns a draw; no read has a side effect.  The form of the
draw is the model's choice (assumption log 1): the free value `Config.draw` at the counter
`State.draws`, which counts up.  The statement holds for every value of the counter. -/
def Obligations.BusyReadIsDrawn : Prop :=
  ∀ (s : State) (rest : List Event) (off : BitVec 8) (c : Word), s.events = .read off 4 :: rest →
    s.pending = some c → off.toNat % 4 = 0 →
    (off.toNat = 0x24 →
      step s = .next { s with events := rest, reply := some ⟨4, statusValue s⟩ }) ∧
    (off.toNat = 0x28 →
      step s = .next { s with events := rest, reply := some ⟨4, ctrlValue s⟩ }) ∧
    (off.toNat = 0x20 ∨ (0x30 ≤ off.toNat ∧ off.toNat < 0x40) ∨ 0xF0 ≤ off.toNat →
      step s = .next { s with events := rest, reply := some ⟨4, 0⟩ }) ∧
    (off.toNat < 0x20 ∨ off.toNat = 0x2C ∨ (0x40 ≤ off.toNat ∧ off.toNat < 0xF0) →
      step s = .next
        { s with events := rest, reply := some ⟨4, Config.draw s.draws⟩, draws := s.draws + 1 })

/-- R53: any access that is not 4 bytes at a multiple of 4 records BUS_ACCESS, busy or not; a bad write
changes no register and a bad read returns 0.  That sizes other than 1, 2 and 4 are bad accesses too is
the model's reading of R53 (assumption log 8), and that the value of a write and of a reply is 32 bits
whatever the size is the model's choice (log 9). -/
def Obligations.BadAccessOnlyRecordsError : Prop :=
  ∀ (s : State) (rest : List Event) (off : BitVec 8) (n : Nat), (n ≠ 4 ∨ off.toNat % 4 ≠ 0) →
    (s.events = .read off n :: rest →
      step s = .next { s with
        events := rest, err := true, errcode := firstError s 1, reply := some ⟨n, 0⟩ }) ∧
    (∀ v, s.events = .write off n v :: rest →
      step s = .next { s with events := rest, err := true, errcode := firstError s 1 })

/-- R25, R55: what an admitted write does at every offset but CMD, STATUS and CTRL with no command
pending.  KEY words also clear KEY_VALID, STATE words leave PHASE, and read-only and reserved places
ignore the write with no error. -/
def Obligations.WriteReachesRegister : Prop :=
  ∀ (s : State) (rest : List Event) (off : BitVec 8) (v : Word), s.events = .write off 4 v :: rest →
    s.pending = none → off.toNat % 4 = 0 →
    (∀ j : Fin 4, off.toNat = 4 * j.val → ∃ k : Block,
      step s = .next { s with events := rest, key := k, keyValid := false } ∧
      ∀ m : Fin 4, k.reg m = if m = j then v else s.key.reg m) ∧
    (∀ j : Fin 4, off.toNat = 0x10 + 4 * j.val → ∃ b : Block,
      step s = .next { s with events := rest, st := b } ∧
      ∀ m : Fin 4, b.reg m = if m = j then v else s.st.reg m) ∧
    (0x2C ≤ off.toNat → step s = .next { s with events := rest })

/-- R58: while a command is pending, a write to KEY, STATE or CMD is dropped with a BUSY error, a write
to STATUS or CTRL takes effect as always, and a write to a read-only or reserved place is ignored.  The
pending command and everything else stay. -/
def Obligations.BusyWriteDropped : Prop :=
  ∀ (s : State) (rest : List Event) (off : BitVec 8) (v c : Word),
    s.events = .write off 4 v :: rest → s.pending = some c → off.toNat % 4 = 0 →
    (off.toNat < 0x24 →
      step s = .next { s with events := rest, err := true, errcode := firstError s 2 }) ∧
    (off.toNat = 0x24 →
      step s = .next { s with
        events := rest
        done := if v.getLsbD 1 = true then false else s.done
        err := if v.getLsbD 3 = true then false else s.err
        errcode := if v.getLsbD 3 = true then 0 else s.errcode }) ∧
    (off.toNat = 0x28 → step s = .next { s with events := rest, irqEn := v.getLsbD 0 }) ∧
    (0x2C ≤ off.toNat → step s = .next { s with events := rest })

/-- R192: a write to CTRL sets IRQ_EN to bit 0 of the value, busy or not, changes nothing else, and the
interrupt line follows at once. -/
def Obligations.CtrlWriteSetsIrqEn : Prop :=
  ∀ (s : State) (rest : List Event) (v : Word), s.events = .write 0x28 4 v :: rest →
    ∃ t, step s = .next t ∧ t = { s with events := rest, irqEn := v.getLsbD 0 } ∧
      irq t = (v.getLsbD 0 && s.done)

/-- R193: a write to STATUS, busy or not: bit 1 clears DONE, bit 3 clears ERR and ERRCODE together, and
nothing else changes. -/
def Obligations.StatusWriteClearsBits : Prop :=
  ∀ (s : State) (rest : List Event) (v : Word), s.events = .write 0x24 4 v :: rest →
    step s = .next { s with
      events := rest
      done := if v.getLsbD 1 = true then false else s.done
      err := if v.getLsbD 3 = true then false else s.err
      errcode := if v.getLsbD 3 = true then 0 else s.errcode }

/-- R28, R34, R207: the fields of STATUS, bit by bit; bit 8 is the interrupt line. -/
def Obligations.StatusFieldsReadBack : Prop :=
  ∀ s : State,
    (statusValue s).getLsbD 0 = s.pending.isSome ∧
    (statusValue s).getLsbD 1 = s.done ∧
    (statusValue s).getLsbD 2 = s.keyValid ∧
    (statusValue s).getLsbD 3 = s.err ∧
    (statusValue s).extractLsb' 4 4 = s.errcode ∧
    (statusValue s).getLsbD 8 = (s.irqEn && s.done) ∧
    (statusValue s).getLsbD 8 = irq s ∧
    (statusValue s).extractLsb' 9 23 = 0

/-- R29: CTRL reads IRQ_EN in bit 0 and zero above. -/
def Obligations.CtrlFieldsReadBack : Prop :=
  ∀ s : State, (ctrlValue s).getLsbD 0 = s.irqEn ∧ (ctrlValue s).extractLsb' 1 31 = 0

/-- R30, R170: the PHASE register's 41 values, as the rule's table lists them. -/
def Obligations.PhaseRegisterTable : Prop :=
  (List.finRange 41).map phaseValue =
    ([0x00000000, 0x00004001, 0x00001102, 0x00002103, 0x00003104, 0x00004105, 0x00001206, 0x00002207] ++
     [0x00003208, 0x00004209, 0x0000130A, 0x0000230B, 0x0000330C, 0x0000430D, 0x0000140E, 0x0000240F] ++
     [0x00003410, 0x00004411, 0x00001512, 0x00002513, 0x00003514, 0x00004515, 0x00001616, 0x00002617] ++
     [0x00003618, 0x00004619, 0x0000171A, 0x0000271B, 0x0000371C, 0x0000471D, 0x0000181E, 0x0000281F] ++
     [0x00003820, 0x00004821, 0x00001922, 0x00002923, 0x00003924, 0x00004925, 0x00001A26, 0x00002A27] ++
     [0x0000CA28] : List Word)

/-- R56: repeating an admitted write anywhere but CMD gives the same state as writing once. -/
def Obligations.RepeatedWriteIsIdempotent : Prop :=
  ∀ (s : State) (rest : List Event) (off : BitVec 8) (v : Word), off.toNat % 4 = 0 →
    off.toNat ≠ 0x20 →
    Host.Core.run core 2 { s with events := .write off 4 v :: .write off 4 v :: rest } =
      Host.Core.run core 1 { s with events := .write off 4 v :: rest }

/-! ### Errors, interrupt and reset (60_exceptions.md, 70_reset_and_hazards.md) -/

/-- R202: once ERR is set, no step but a STATUS write with bit 3 or a reset changes ERR or ERRCODE: the
first error is kept. -/
def Obligations.FirstErrorIsKept : Prop :=
  ∀ s t : State, s.err = true → step s = .next t → ¬ resetNext s →
    (∀ v, writeNext s 0x24 v → v.getLsbD 3 = false) → t.err = true ∧ t.errcode = s.errcode

/-- R28, R203, R207: DONE is set only by a completion or by the rejection of a CMD write by decoding,
and cleared only by writing 1 to it or by reset. -/
def Obligations.DoneChangesOnlyBy : Prop :=
  ∀ s t : State, step s = .next t →
    (s.done = false → t.done = true →
      (coreNext s ∧ s.pending.isSome = true) ∨
      (∃ c e, writeNext s 0x20 c ∧ s.pending = none ∧
        decodeCommand c s.keyValid s.phase = .error e)) ∧
    (s.done = true → t.done = false →
      resetNext s ∨ ∃ v, writeNext s 0x24 v ∧ v.getLsbD 1 = true)

/-- R230, R232: a reset at any point, with a command pending or not, gives exactly the reset values; what
the host has still to do and has already read is the bus's and stays (assumption log 1, 2). -/
def Obligations.ResetRestoresResetValues : Prop :=
  ∀ (s : State) (rest : List Event), s.events = .reset :: rest →
    step s = .next
      { State.reset with events := rest, reply := s.reply, draws := s.draws }

/-- R36: the reset values, and what STATUS, CTRL and PHASE read after reset.  RK is then not the
expansion of KEY, which KEY_VALID = 0 records. -/
def Obligations.ResetValues : Prop :=
  State.reset.key = ⟨0, 0, 0, 0⟩ ∧ State.reset.st = ⟨0, 0, 0, 0⟩ ∧
  State.reset.rk = Vector.replicate 44 0 ∧ State.reset.keyValid = false ∧ State.reset.phase = 0 ∧
  State.reset.pending = none ∧ State.reset.done = false ∧ State.reset.err = false ∧
  State.reset.errcode = 0 ∧ State.reset.irqEn = false ∧ statusValue State.reset = 0 ∧
  ctrlValue State.reset = 0 ∧ phaseValue State.reset.phase = 0 ∧ irq State.reset = false ∧
  State.reset.rk ≠ expand State.reset.key

/-! ### The whole machine -/

/-- R27, R37: the invariants hold after reset. -/
def Obligations.ResetMeetsInvariants : Prop := StateInv State.reset

/-- R27, R37: every step keeps the invariants, from every state that meets them: ERRCODE is 0 while ERR
is 0 and at most 6, the pending word is one that decoding accepts, and KEY_VALID means RK = Expand(KEY). -/
def Obligations.StepKeepsInvariants : Prop :=
  ∀ s t : State, StateInv s → step s = .next t → StateInv t

/-- R11: nothing traps or hangs: every state has a next state. -/
def Obligations.EveryStateSteps : Prop := ∀ s : State, ∃ t, step s = .next t

/-- R25: KEY changes only by an accepted host write to KEY, by CLEAR and by reset. -/
def Obligations.KeyChangesOnlyBy : Prop :=
  ∀ s t : State, step s = .next t → t.key ≠ s.key →
    (∃ off v, writeNext s off v ∧ off.toNat < 0x10 ∧ s.pending = none) ∨ completes s .clear ∨
      resetNext s

/-- R24: STATE changes only by an accepted host write to STATE, by SUBBYTES, SHIFTROWS, MIXCOLUMNS,
ADDRK, ENCRYPT, STEP and CLEAR, and by reset. -/
def Obligations.StateChangesOnlyBy : Prop :=
  ∀ s t : State, step s = .next t → t.st ≠ s.st →
    (∃ off v, writeNext s off v ∧ 0x10 ≤ off.toNat ∧ off.toNat < 0x20 ∧ s.pending = none) ∨
      completes s .subbytes ∨ completes s .shiftrows ∨ completes s .mixcolumns ∨
      (∃ n, completes s (.addrk n)) ∨ completes s .encrypt ∨ completes s .step ∨
      completes s .clear ∨ resetNext s

/-- R26, R126: RK changes only by EXPAND, ENCRYPT and TRACE_START, which write all of it at once from
KEY, and by CLEAR and reset. -/
def Obligations.RoundKeysChangeOnlyBy : Prop :=
  ∀ s t : State, step s = .next t → t.rk ≠ s.rk →
    ((completes s .expand ∨ completes s .encrypt ∨ completes s .traceStart) ∧ t.rk = expand s.key) ∨
      completes s .clear ∨ resetNext s

/-- R27: KEY_VALID is set only by the completion of EXPAND, ENCRYPT or TRACE_START and cleared only by an
accepted KEY write, CLEAR and reset. -/
def Obligations.KeyValidChangesOnlyBy : Prop :=
  ∀ s t : State, step s = .next t →
    (s.keyValid = false → t.keyValid = true →
      completes s .expand ∨ completes s .encrypt ∨ completes s .traceStart) ∧
    (s.keyValid = true → t.keyValid = false →
      (∃ off v, writeNext s off v ∧ off.toNat < 0x10 ∧ s.pending = none) ∨ completes s .clear ∨
        resetNext s)

/-- R30: PHASE changes only by TRACE_START, STEP, ENCRYPT and CLEAR, and by reset. -/
def Obligations.PhaseChangesOnlyBy : Prop :=
  ∀ s t : State, step s = .next t → t.phase ≠ s.phase →
    completes s .traceStart ∨ completes s .step ∨ completes s .encrypt ∨ completes s .clear ∨
      resetNext s

/-- R58, R62, R73: no host transaction changes a pending command, nor any state its completion reads. -/
def Obligations.PendingCommandIsFrozen : Prop :=
  ∀ (s t : State) (c : Word), s.pending = some c → transactionNext s → step s = .next t →
    t.pending = some c ∧ t.key = s.key ∧ t.st = s.st ∧ t.rk = s.rk ∧ t.keyValid = s.keyValid ∧
      t.phase = s.phase

/-- R60, R246: BUSY clears, so a wait loop ends; and where no reset stands among the host's happenings,
which would discard the command (R232), it clears because the core takes its turn for the very word that
is pending, with DONE set.  The bound is the model's choice (assumption log 2), since R246 gives none: the
host's list of happenings is finite and the core takes its turn when the list is empty, so all this
happens within one step more than the list has happenings. -/
def Obligations.PendingCommandCompletes : Prop :=
  (∀ s : State, ∃ k t, k ≤ s.events.length + 1 ∧ Host.Core.run core k s = .next t ∧ t.pending = none) ∧
  (∀ (s : State) (c : Word), s.pending = some c → .reset ∉ s.events →
    ∃ k u t, k ≤ s.events.length ∧ Host.Core.run core k s = .next u ∧ coreNext u ∧ u.pending = some c ∧
      step u = .next t ∧ t.pending = none ∧ t.done = true)

/-- R57, R172: what a read returned, and the draws made, never feed back: states that differ only there
step to states that differ only there. -/
def Obligations.ReadsDoNotFeedBack : Prop :=
  ∀ (s t : State) (r : Option Reply) (d : Nat), step s = .next t →
    ∃ r' d', step { s with reply := r, draws := d } = .next { t with reply := r', draws := d' }

/-! ### The mathematics -/

/-- R102, R103: xtime's corner cases and the laws of the field product. -/
def Obligations.FieldProductLaws : Prop :=
  xtime 0x00 = 0x00 ∧ xtime 0x80 = 0x1B ∧ xtime 0xFF = 0xE5 ∧ xtime 0x8D = 0x01 ∧
  (∀ a : Byte, gmul 0 a = 0 ∧ gmul 1 a = a ∧ gmul 2 a = xtime a ∧ gmul 3 a = xtime a ^^^ a) ∧
  (∀ a b : Byte, gmul a b = gmul b a) ∧
  (∀ a : Byte, a ≠ 0 → ∃ b, gmul a b = 1 ∧ ∀ b', gmul a b' = 1 → b' = b)

/-- R107: SBOX is a permutation, with the rule's sample entries. -/
def Obligations.SboxIsPermutation : Prop :=
  (∀ a b : Byte, sbox a = sbox b → a = b) ∧ (∀ y : Byte, ∃ a, sbox a = y) ∧
  sbox 0x00 = 0x63 ∧ sbox 0x01 = 0x7C ∧ sbox 0x53 = 0xED ∧ sbox 0x52 = 0x00 ∧ sbox 0xFF = 0x16

/-- R104, R106: the table is the affine transform of the field inverse, bit by bit. -/
def Obligations.SboxIsAffineInverse : Prop :=
  ginv 0 = 0 ∧ (∀ a : Byte, a ≠ 0 → gmul a (ginv a) = 1) ∧
  ∀ (a : Byte) (i : Nat), i < 8 →
    (sbox a).getLsbD i =
      ((ginv a).getLsbD i ^^ (ginv a).getLsbD ((i + 4) % 8) ^^ (ginv a).getLsbD ((i + 5) % 8)
        ^^ (ginv a).getLsbD ((i + 6) % 8) ^^ (ginv a).getLsbD ((i + 7) % 8)
        ^^ (0x63 : Byte).getLsbD i)

/-- R108, R109: RCON starts at 0x01, each entry is xtime of the one before, and none is zero. -/
def Obligations.RconIsPowersOfX : Prop :=
  rcon 1 = 0x01 ∧ (∀ j : Fin 9, rcon (j.val + 2) = xtime (rcon (j.val + 1))) ∧
  ∀ j : Fin 10, rcon (j.val + 1) ≠ 0

/-- R148: ShiftRows applied four times is the identity, four SHIFTROWS commands restore STATE, and ADDRK n
twice restores STATE. -/
def Obligations.ShiftRowsAndAddRoundKeyUndo : Prop :=
  (∀ b : Block, shiftRows (shiftRows (shiftRows (shiftRows b))) = b) ∧
  (∀ s s₁ s₂ s₃ s₄ : State, exec .shiftrows s = .next s₁ → exec .shiftrows s₁ = .next s₂ →
    exec .shiftrows s₂ = .next s₃ → exec .shiftrows s₃ = .next s₄ → s₄.st = s.st) ∧
  (∀ (s s₁ s₂ : State) (n : BitVec 4), n ≤ 10 → s.keyValid = true → exec (.addrk n) s = .next s₁ →
    exec (.addrk n) s₁ = .next s₂ → s₂.st = s.st)

/-- R148: MixColumns on a column is undone, on both sides, by the inverse matrix. -/
def Obligations.MixColumnHasInverse : Prop :=
  ∀ w : Word, invMixColumn (mixColumn w) = w ∧ mixColumn (invMixColumn w) = w

/-- R171: the whitening, nine main rounds and the final round are the forty transforms of R170's table
in order. -/
def Obligations.CipherIsFortyTransforms : Prop :=
  ∀ (b : Block) (w : Vector Word 44), cipher b w = phases.foldl (fun b p => transform w p b) b

/-- R148: for a fixed key ENCRYPT is injective on plaintexts: two states with the same KEY that encrypt
to the same STATE had the same STATE. -/
def Obligations.EncryptIsInjective : Prop :=
  ∀ s t s' t' : State, s.key = t.key → exec .encrypt s = .next s' → exec .encrypt t = .next t' →
    s'.st = t'.st → s.st = t.st

/-- R176: TRACE_START and forty STEPs, each issued and completed with nothing in between, leave exactly
the state ENCRYPT leaves from the same start. -/
def Obligations.TraceEqualsEncrypt : Prop :=
  ∀ (s : State) (rest : List Event), s.pending = none →
    Host.Core.run core 82 { s with
      events := (Instr.traceStart :: List.replicate 40 .step).flatMap (fun i => [cmd i, .complete])
        ++ rest } =
    Host.Core.run core 2 { s with events := cmd .encrypt :: .complete :: rest }

/-- 95_test_vectors.md L1-1, the source's known-answer test (R173's example). -/
def Obligations.KnownAnswerEncryption : Prop :=
  ∀ s : State, s.key = ⟨0x00010203, 0x04050607, 0x08090a0b, 0x0c0d0e0f⟩ →
    s.st = ⟨0x00112233, 0x44556677, 0x8899aabb, 0xccddeeff⟩ →
    ∃ t, exec .encrypt s = .next t ∧
      t.st = ⟨0x69c4e0d8, 0x6a7b0430, 0xd8cdb780, 0x70b4c55a⟩ ∧
      phaseValue t.phase = 0x0000CA28 ∧ t.keyValid = true
end

