-- ==== Sys2Proof/Laws/Bytes.lean ====
section
/-! SUPPORT. Words and blocks as bytes: what is packed is what is read back. -/

namespace Sys2Proof.Machine

/-- R13: bit `i` of a packed word is bit `i mod 8` of one of its bytes. -/
theorem word_getLsbD (a b c d : Byte) (i : Nat) :
    (word a b c d).getLsbD i =
      if i < 8 then d.getLsbD i
      else if i < 16 then c.getLsbD (i - 8)
      else if i < 24 then b.getLsbD (i - 16)
      else a.getLsbD (i - 24) := by
  change BitVec.getLsbD (w := 8 + 8 + 8 + 8) (a ++ b ++ c ++ d) i = _
  rw [BitVec.getLsbD_append, BitVec.getLsbD_append, BitVec.getLsbD_append]
  by_cases h8 : i < 8
  · simp [h8]
  · by_cases h16 : i < 16
    · simp [h8, h16, show i - 8 < 8 by omega]
    · by_cases h24 : i < 24
      · simp [h8, h16, h24, show ¬ i - 8 < 8 by omega, show i - 8 - 8 < 8 by omega]
        congr 1
      · simp [h8, h16, h24, show ¬ i - 8 < 8 by omega, show ¬ i - 8 - 8 < 8 by omega]
        congr 1

/-- R13: bit `i` of byte `k` of a word. -/
theorem wbyte_getLsbD (w : Word) (k : Fin 4) (i : Nat) :
    (wbyte w k).getLsbD i = (decide (i < 8) && w.getLsbD (24 - 8 * k.val + i)) := by
  simp [wbyte]

@[simp] theorem wbyte_word_zero (a b c d : Byte) : wbyte (word a b c d) 0 = a := by
  refine BitVec.eq_of_getLsbD_eq fun i hi => ?_
  rw [wbyte_getLsbD, word_getLsbD]
  simp [hi, show ¬ 24 + i < 8 by omega, show ¬ 24 + i < 16 by omega]

@[simp] theorem wbyte_word_one (a b c d : Byte) : wbyte (word a b c d) 1 = b := by
  refine BitVec.eq_of_getLsbD_eq fun i hi => ?_
  rw [wbyte_getLsbD, word_getLsbD]
  simp [hi, show ¬ 16 + i < 8 by omega, show ¬ 16 + i < 16 by omega, show 16 + i < 24 by omega]

@[simp] theorem wbyte_word_two (a b c d : Byte) : wbyte (word a b c d) 2 = c := by
  refine BitVec.eq_of_getLsbD_eq fun i hi => ?_
  rw [wbyte_getLsbD, word_getLsbD]
  simp [hi, show ¬ 8 + i < 8 by omega, show 8 + i < 16 by omega]

@[simp] theorem wbyte_word_three (a b c d : Byte) : wbyte (word a b c d) 3 = d := by
  refine BitVec.eq_of_getLsbD_eq fun i hi => ?_
  rw [wbyte_getLsbD, word_getLsbD]
  simp [hi]

/-- R13: a word is its four bytes. -/
theorem word_wbytes (w : Word) : word (wbyte w 0) (wbyte w 1) (wbyte w 2) (wbyte w 3) = w := by
  refine BitVec.eq_of_getLsbD_eq fun i hi => ?_
  simp only [wbyte_getLsbD, word_getLsbD]
  by_cases h8 : i < 8
  · simp [h8]
  · by_cases h16 : i < 16
    · simp [h8, h16, show i - 8 < 8 by omega, show 8 + (i - 8) = i by omega]
    · by_cases h24 : i < 24
      · simp [h8, h16, h24, show i - 16 < 8 by omega, show 16 + (i - 16) = i by omega]
      · simp [h8, h16, h24, show i - 24 < 8 by omega, show 24 + (i - 24) = i by omega]

/-- R13, R101: bytes of an XOR are XORs of bytes. -/
@[simp] theorem wbyte_xor (v w : Word) (k : Fin 4) : wbyte (v ^^^ w) k = wbyte v k ^^^ wbyte w k := by
  refine BitVec.eq_of_getLsbD_eq fun i hi => ?_
  rw [BitVec.getLsbD_xor, wbyte_getLsbD, wbyte_getLsbD, wbyte_getLsbD, BitVec.getLsbD_xor]
  simp [hi]

/-- R23: a group built from sixteen bytes reads them back. -/
@[simp] theorem byte_ofBytes (f : Fin 16 → Byte) (k : Fin 16) : (Block.ofBytes f).byte k = f k := by
  fin_cases k
  exacts [wbyte_word_zero .., wbyte_word_one .., wbyte_word_two .., wbyte_word_three ..,
    wbyte_word_zero .., wbyte_word_one .., wbyte_word_two .., wbyte_word_three ..,
    wbyte_word_zero .., wbyte_word_one .., wbyte_word_two .., wbyte_word_three ..,
    wbyte_word_zero .., wbyte_word_one .., wbyte_word_two .., wbyte_word_three ..]

/-- R23: a group is its sixteen bytes. -/
theorem block_ext_bytes {a b : Block} (h : ∀ k, a.byte k = b.byte k) : a = b := by
  have hw (v w : Word) (h0 : wbyte v 0 = wbyte w 0) (h1 : wbyte v 1 = wbyte w 1)
      (h2 : wbyte v 2 = wbyte w 2) (h3 : wbyte v 3 = wbyte w 3) : v = w := by
    rw [← word_wbytes v, ← word_wbytes w, h0, h1, h2, h3]
  obtain ⟨a0, a1, a2, a3⟩ := a
  obtain ⟨b0, b1, b2, b3⟩ := b
  have e0 := hw a0 b0 (h 0) (h 1) (h 2) (h 3)
  have e1 := hw a1 b1 (h 4) (h 5) (h 6) (h 7)
  have e2 := hw a2 b2 (h 8) (h 9) (h 10) (h 11)
  have e3 := hw a3 b3 (h 12) (h 13) (h 14) (h 15)
  rw [e0, e1, e2, e3]

/-- R140 by byte. -/
@[simp] theorem subBytes_byte (s : Block) (k : Fin 16) : (subBytes s).byte k = sbox (s.byte k) := by
  simp [subBytes]

/-- R146 by byte. -/
@[simp] theorem addRoundKey_byte (s k : Block) (j : Fin 16) :
    (addRoundKey s k).byte j = s.byte j ^^^ k.byte j := by
  have hreg (j : Fin 4) : (addRoundKey s k).reg j = s.reg j ^^^ k.reg j := by
    match j with
    | 0 | 1 | 2 | 3 => rfl
  simp [Block.byte, hreg]

/-- R26: the two readings of a round key's byte agree. -/
theorem roundKey_byte (rk : Vector Word 44) (n : Fin 11) (j : Fin 16) :
    (roundKey rk n).byte j = roundKeyByte rk n j := by
  fin_cases j <;> rfl

end Sys2Proof.Machine
end

