-- ==== Sys2Proof/Laws/Decode.lean ====
section
/-! SUPPORT. The command word: its four fields are all of it, and the opcode map case by case. -/

namespace Sys2Proof

/-- R70: OP, RSV0, RND and RSV1 cover the word, so words that agree on them are equal. -/
theorem word_eq_of_fields {c d : Word} (h0 : opField c = opField d) (h1 : rsv0Field c = rsv0Field d)
    (h2 : rndField c = rndField d) (h3 : rsv1Field c = rsv1Field d) : c = d := by
  refine BitVec.eq_of_getLsbD_eq fun i hi => ?_
  have field (a n : Nat) (h : c.extractLsb' a n = d.extractLsb' a n) (hl : a ≤ i) (hu : i < a + n) :
      c.getLsbD i = d.getLsbD i := by
    have := congrArg (fun v => v.getLsbD (i - a)) h
    simpa [BitVec.getLsbD_extractLsb', show i - a < n by omega, show a + (i - a) = i by omega]
      using this
  by_cases i0 : i < 4
  · exact field 0 4 h0 (by omega) (by omega)
  by_cases i1 : i < 8
  · exact field 4 4 h1 (by omega) (by omega)
  by_cases i2 : i < 12
  · exact field 8 4 h2 (by omega) (by omega)
  · exact field 12 20 h3 (by omega) (by omega)

/-- R72: a claim about every opcode is sixteen claims. -/
theorem forall_opcode {P : BitVec 4 → Prop} (h : ∀ k : Fin 16, P (BitVec.ofNat 4 k.val))
    (op : BitVec 4) : P op := by
  simpa using h ⟨op.toNat, op.isLt⟩

/-- R73: an accepted word passed the word's own checks and the state's. -/
theorem decodeCommand_ok {c : Word} {kv : Bool} {p : Fin 41} {i : Instr} :
    decodeCommand c kv p = .ok i ↔ decodeWord c = .ok i ∧ i.stateError kv p = none := by
  unfold decodeCommand
  cases hd : decodeWord c with
  | error e => simp
  | ok j =>
    cases hs : j.stateError kv p with
    | none =>
      simp only [hs, Except.ok.injEq]
      exact ⟨fun h => h ▸ ⟨rfl, hs⟩, fun h => h.1⟩
    | some e =>
      simp only [hs, reduceCtorEq, Except.ok.injEq, false_iff, not_and]
      rintro rfl
      simp [hs]

end Sys2Proof
end

