-- ==== Sys2Proof/Laws/State.lean ====
section
/-! SUPPORT. What each named update of State does to each field, one lemma a field, so that no proof
unfolds a record update. -/

namespace Sys2Proof.Machine

/-! ### `finish` (R81): PENDING and DONE are all it writes -/

@[simp] theorem finish_key (s : State) : (finish s).key = s.key := rfl
@[simp] theorem finish_st (s : State) : (finish s).st = s.st := rfl
@[simp] theorem finish_rk (s : State) : (finish s).rk = s.rk := rfl
@[simp] theorem finish_keyValid (s : State) : (finish s).keyValid = s.keyValid := rfl
@[simp] theorem finish_phase (s : State) : (finish s).phase = s.phase := rfl
@[simp] theorem finish_pending (s : State) : (finish s).pending = none := rfl
@[simp] theorem finish_done (s : State) : (finish s).done = true := rfl
@[simp] theorem finish_err (s : State) : (finish s).err = s.err := rfl
@[simp] theorem finish_errcode (s : State) : (finish s).errcode = s.errcode := rfl
@[simp] theorem finish_irqEn (s : State) : (finish s).irqEn = s.irqEn := rfl
@[simp] theorem finish_events (s : State) : (finish s).events = s.events := rfl
@[simp] theorem finish_reply (s : State) : (finish s).reply = s.reply := rfl
@[simp] theorem finish_draws (s : State) : (finish s).draws = s.draws := rfl

/-! ### `loadSchedule` (R124): RK and KEY_VALID are all it writes -/

@[simp] theorem loadSchedule_key (s : State) : (loadSchedule s).key = s.key := rfl
@[simp] theorem loadSchedule_st (s : State) : (loadSchedule s).st = s.st := rfl
@[simp] theorem loadSchedule_rk (s : State) : (loadSchedule s).rk = expand s.key := rfl
@[simp] theorem loadSchedule_keyValid (s : State) : (loadSchedule s).keyValid = true := rfl
@[simp] theorem loadSchedule_phase (s : State) : (loadSchedule s).phase = s.phase := rfl
@[simp] theorem loadSchedule_pending (s : State) : (loadSchedule s).pending = s.pending := rfl
@[simp] theorem loadSchedule_done (s : State) : (loadSchedule s).done = s.done := rfl
@[simp] theorem loadSchedule_err (s : State) : (loadSchedule s).err = s.err := rfl
@[simp] theorem loadSchedule_errcode (s : State) : (loadSchedule s).errcode = s.errcode := rfl
@[simp] theorem loadSchedule_irqEn (s : State) : (loadSchedule s).irqEn = s.irqEn := rfl
@[simp] theorem loadSchedule_events (s : State) : (loadSchedule s).events = s.events := rfl
@[simp] theorem loadSchedule_reply (s : State) : (loadSchedule s).reply = s.reply := rfl
@[simp] theorem loadSchedule_draws (s : State) : (loadSchedule s).draws = s.draws := rfl

/-! ### `writeCtrl` (R192): IRQ_EN are all it writes -/

@[simp] theorem writeCtrl_key (v : Word) (s : State) : (writeCtrl v s).key = s.key := rfl
@[simp] theorem writeCtrl_st (v : Word) (s : State) : (writeCtrl v s).st = s.st := rfl
@[simp] theorem writeCtrl_rk (v : Word) (s : State) : (writeCtrl v s).rk = s.rk := rfl
@[simp] theorem writeCtrl_keyValid (v : Word) (s : State) : (writeCtrl v s).keyValid = s.keyValid := rfl
@[simp] theorem writeCtrl_phase (v : Word) (s : State) : (writeCtrl v s).phase = s.phase := rfl
@[simp] theorem writeCtrl_pending (v : Word) (s : State) : (writeCtrl v s).pending = s.pending := rfl
@[simp] theorem writeCtrl_done (v : Word) (s : State) : (writeCtrl v s).done = s.done := rfl
@[simp] theorem writeCtrl_err (v : Word) (s : State) : (writeCtrl v s).err = s.err := rfl
@[simp] theorem writeCtrl_errcode (v : Word) (s : State) : (writeCtrl v s).errcode = s.errcode := rfl
@[simp] theorem writeCtrl_irqEn (v : Word) (s : State) : (writeCtrl v s).irqEn = v.getLsbD 0 := rfl
@[simp] theorem writeCtrl_events (v : Word) (s : State) : (writeCtrl v s).events = s.events := rfl
@[simp] theorem writeCtrl_reply (v : Word) (s : State) : (writeCtrl v s).reply = s.reply := rfl
@[simp] theorem writeCtrl_draws (v : Word) (s : State) : (writeCtrl v s).draws = s.draws := rfl

/-! ### `writeStatus` (R193): DONE, ERR and ERRCODE are all it writes -/

@[simp] theorem writeStatus_key (v : Word) (s : State) : (writeStatus v s).key = s.key := rfl
@[simp] theorem writeStatus_st (v : Word) (s : State) : (writeStatus v s).st = s.st := rfl
@[simp] theorem writeStatus_rk (v : Word) (s : State) : (writeStatus v s).rk = s.rk := rfl
@[simp] theorem writeStatus_keyValid (v : Word) (s : State) : (writeStatus v s).keyValid = s.keyValid := rfl
@[simp] theorem writeStatus_phase (v : Word) (s : State) : (writeStatus v s).phase = s.phase := rfl
@[simp] theorem writeStatus_pending (v : Word) (s : State) : (writeStatus v s).pending = s.pending := rfl
@[simp] theorem writeStatus_done (v : Word) (s : State) : (writeStatus v s).done = (s.done && !v.getLsbD 1) := rfl
@[simp] theorem writeStatus_err (v : Word) (s : State) : (writeStatus v s).err = (s.err && !v.getLsbD 3) := rfl
@[simp] theorem writeStatus_errcode (v : Word) (s : State) : (writeStatus v s).errcode = if v.getLsbD 3 then 0 else s.errcode := rfl
@[simp] theorem writeStatus_irqEn (v : Word) (s : State) : (writeStatus v s).irqEn = s.irqEn := rfl
@[simp] theorem writeStatus_events (v : Word) (s : State) : (writeStatus v s).events = s.events := rfl
@[simp] theorem writeStatus_reply (v : Word) (s : State) : (writeStatus v s).reply = s.reply := rfl
@[simp] theorem writeStatus_draws (v : Word) (s : State) : (writeStatus v s).draws = s.draws := rfl

/-! ### `raiseError` (R202): ERR and ERRCODE are all it writes -/

@[simp] theorem raiseError_key (e : ErrorCode) (s : State) : (raiseError e s).key = s.key := by unfold raiseError; split <;> simp_all
@[simp] theorem raiseError_st (e : ErrorCode) (s : State) : (raiseError e s).st = s.st := by unfold raiseError; split <;> simp_all
@[simp] theorem raiseError_rk (e : ErrorCode) (s : State) : (raiseError e s).rk = s.rk := by unfold raiseError; split <;> simp_all
@[simp] theorem raiseError_keyValid (e : ErrorCode) (s : State) : (raiseError e s).keyValid = s.keyValid := by unfold raiseError; split <;> simp_all
@[simp] theorem raiseError_phase (e : ErrorCode) (s : State) : (raiseError e s).phase = s.phase := by unfold raiseError; split <;> simp_all
@[simp] theorem raiseError_pending (e : ErrorCode) (s : State) : (raiseError e s).pending = s.pending := by unfold raiseError; split <;> simp_all
@[simp] theorem raiseError_done (e : ErrorCode) (s : State) : (raiseError e s).done = s.done := by unfold raiseError; split <;> simp_all
@[simp] theorem raiseError_err (e : ErrorCode) (s : State) : (raiseError e s).err = true := by unfold raiseError; split <;> simp_all
@[simp] theorem raiseError_errcode (e : ErrorCode) (s : State) : (raiseError e s).errcode = if s.err then s.errcode else e.code := by unfold raiseError; split <;> simp_all
@[simp] theorem raiseError_irqEn (e : ErrorCode) (s : State) : (raiseError e s).irqEn = s.irqEn := by unfold raiseError; split <;> simp_all
@[simp] theorem raiseError_events (e : ErrorCode) (s : State) : (raiseError e s).events = s.events := by unfold raiseError; split <;> simp_all
@[simp] theorem raiseError_reply (e : ErrorCode) (s : State) : (raiseError e s).reply = s.reply := by unfold raiseError; split <;> simp_all
@[simp] theorem raiseError_draws (e : ErrorCode) (s : State) : (raiseError e s).draws = s.draws := by unfold raiseError; split <;> simp_all

/-! ### `reject` (R203): ERR, ERRCODE, DONE and PENDING are all it writes -/

@[simp] theorem reject_key (e : ErrorCode) (s : State) : (reject e s).key = s.key := by simp [reject]
@[simp] theorem reject_st (e : ErrorCode) (s : State) : (reject e s).st = s.st := by simp [reject]
@[simp] theorem reject_rk (e : ErrorCode) (s : State) : (reject e s).rk = s.rk := by simp [reject]
@[simp] theorem reject_keyValid (e : ErrorCode) (s : State) : (reject e s).keyValid = s.keyValid := by simp [reject]
@[simp] theorem reject_phase (e : ErrorCode) (s : State) : (reject e s).phase = s.phase := by simp [reject]
@[simp] theorem reject_pending (e : ErrorCode) (s : State) : (reject e s).pending = none := by simp [reject]
@[simp] theorem reject_done (e : ErrorCode) (s : State) : (reject e s).done = true := by simp [reject]
@[simp] theorem reject_err (e : ErrorCode) (s : State) : (reject e s).err = true := by simp [reject]
@[simp] theorem reject_errcode (e : ErrorCode) (s : State) : (reject e s).errcode = if s.err then s.errcode else e.code := by simp [reject]
@[simp] theorem reject_irqEn (e : ErrorCode) (s : State) : (reject e s).irqEn = s.irqEn := by simp [reject]
@[simp] theorem reject_events (e : ErrorCode) (s : State) : (reject e s).events = s.events := by simp [reject]
@[simp] theorem reject_reply (e : ErrorCode) (s : State) : (reject e s).reply = s.reply := by simp [reject]
@[simp] theorem reject_draws (e : ErrorCode) (s : State) : (reject e s).draws = s.draws := by simp [reject]

end Sys2Proof.Machine
end

