-- ==== Sys2Proof/Laws/Ops.lean ====
section
/-! SUPPORT. One lemma for each shared operation and for the step: everything it can do. -/

namespace Sys2Proof.Machine

/-- R202: the two cases of recording an error. -/
theorem raiseError_cases (e : ErrorCode) (s : State) :
    (s.err = true ∧ raiseError e s = s) ∨
    (s.err = false ∧ raiseError e s = { s with err := true, errcode := e.code }) := by
  cases h : s.err <;> simp [raiseError, h]

/-- R53, R54, R57: the three cases of a read. -/
theorem busRead_cases (off : BitVec 8) (n : Nat) (s : State) :
    (admitted off n = true ∧ (busy s && (registerAt off).drawnWhenBusy) = true ∧
      busRead off n s = { s with reply := some ⟨4, Config.draw s.draws⟩, draws := s.draws + 1 }) ∨
    (admitted off n = true ∧ (busy s && (registerAt off).drawnWhenBusy) = false ∧
      busRead off n s = { s with reply := some ⟨4, (registerAt off).value s⟩ }) ∨
    (admitted off n = false ∧
      busRead off n s = { raiseError .busAccess s with reply := some ⟨n, 0⟩ }) := by
  cases ha : admitted off n
  · simp [busRead, ha]
  · cases hd : (busy s && (registerAt off).drawnWhenBusy) <;> simp [busRead, ha, hd]

/-- R80: the three cases of a CMD write. -/
theorem issue_cases (c : Word) (s : State) :
    (s.pending.isSome = true ∧ issue c s = raiseError .busy s) ∨
    (s.pending = none ∧ (∃ i, decodeCommand c s.keyValid s.phase = .ok i) ∧
      issue c s = { s with pending := some c }) ∨
    (s.pending = none ∧ ∃ e, decodeCommand c s.keyValid s.phase = .error e ∧
      issue c s = reject e s) := by
  cases hp : s.pending with
  | some d => simp [issue, hp]
  | none =>
    cases hd : decodeCommand c s.keyValid s.phase with
    | ok i => simp [issue, hp, hd]
    | error e => simp [issue, hp, hd]

/-- R55, R58: the two cases of a KEY write. -/
theorem writeKey_cases (j : Fin 4) (v : Word) (s : State) :
    (s.pending.isSome = true ∧ writeKey j v s = raiseError .busy s) ∨
    (s.pending = none ∧ writeKey j v s = { s with key := s.key.setReg j v, keyValid := false }) := by
  cases hp : s.pending <;> simp [writeKey, busy, hp]

/-- R55, R58: the two cases of a STATE write. -/
theorem writeState_cases (j : Fin 4) (v : Word) (s : State) :
    (s.pending.isSome = true ∧ writeState j v s = raiseError .busy s) ∨
    (s.pending = none ∧ writeState j v s = { s with st := s.st.setReg j v }) := by
  cases hp : s.pending <;> simp [writeState, busy, hp]

/-- R53, R55: what a write does, by the register it reaches. -/
theorem busWrite_cases (off : BitVec 8) (n : Nat) (v : Word) (s : State) :
    (admitted off n = true ∧ busWrite off n v s = (registerAt off).write v s) ∨
    (admitted off n = false ∧ busWrite off n v s = raiseError .busAccess s) := by
  cases h : admitted off n <;> simp [busWrite, h]

/-- R81: the three cases of the core's turn. -/
theorem coreTurn_cases (s : State) :
    (s.pending = none ∧ coreTurn s = .next s) ∨
    (∃ c i, s.pending = some c ∧ decodeWord c = .ok i ∧ coreTurn s = exec i s) ∨
    (∃ c e, s.pending = some c ∧ decodeWord c = .error e ∧ coreTurn s = .next (reject e s)) := by
  cases hp : s.pending with
  | none => simp [coreTurn, hp]
  | some c =>
    cases hd : decodeWord c with
    | ok i => exact .inr (.inl ⟨c, i, rfl, hd, by simp [coreTurn, hp, hd]⟩)
    | error e => exact .inr (.inr ⟨c, e, rfl, hd, by simp [coreTurn, hp, hd]⟩)

/-- R59: a step is the core's turn when nothing is listed. -/
theorem step_nil {s : State} (h : s.events = []) : step s = coreTurn s := by
  simp [step, turn, h]

/-- R59: a step is the first happening listed. -/
theorem step_cons {s : State} {e : Event} {rest : List Event} (h : s.events = e :: rest) :
    step s = happen e { s with events := rest } := by
  simp [step, turn, h]

end Sys2Proof.Machine
end

