-- ==== Sys2Proof/Laws/PerInstr.lean ====
section
/-! SUPPORT. The laws of each command as a term: what its word holds outside the opcode
(30_encoding.md R70 to R72). -/

namespace Sys2Proof.Laws.FieldsOfWord

/-- R70, R71: in the word of a command RSV0 and RSV1 are zero, and RND is zero unless the command is
ADDRK, whose operand it then is. -/
def Statement (i : Instr) : Prop :=
  rsv0Field (encode i) = 0 ∧ rsv1Field (encode i) = 0 ∧
    match i with
    | .addrk n => rndField (encode i) = n ∧ opField (encode i) = 6
    | _ => rndField (encode i) = 0 ∧ opField (encode i) ≠ 6

theorem nop : Statement .nop := by
  unfold Statement; decide
theorem expand : Statement .expand := by
  unfold Statement; decide
theorem encrypt : Statement .encrypt := by
  unfold Statement; decide
theorem subbytes : Statement .subbytes := by
  unfold Statement; decide
theorem shiftrows : Statement .shiftrows := by
  unfold Statement; decide
theorem mixcolumns : Statement .mixcolumns := by
  unfold Statement; decide
theorem addrk (n : BitVec 4) : Statement (.addrk n) := by
  unfold Statement; revert n; decide
theorem traceStart : Statement .traceStart := by
  unfold Statement; decide
theorem step : Statement .step := by
  unfold Statement; decide
theorem clear : Statement .clear := by
  unfold Statement; decide

end Sys2Proof.Laws.FieldsOfWord
end

