-- ==== Sys2Proof/Laws/Window.lean ====
section
/-! SUPPORT. The register window: which register stands at which offset, what a step is when a window
access is next, and that a register write touches nothing outside the hardware. -/

namespace Sys2Proof.Machine

/-- R202 as one record: ERR is set and ERRCODE keeps the first error. -/
theorem raiseError_eq (e : ErrorCode) (s : State) :
    raiseError e s = { s with err := true, errcode := firstError s e.code } := by
  obtain ⟨_, _, _, _, _, _, _, err, _, _, _, _, _⟩ := s
  cases err <;> simp [raiseError, firstError]

/-- R203 as one record. -/
theorem reject_eq (e : ErrorCode) (s : State) :
    reject e s =
      { s with err := true, errcode := firstError s e.code, pending := none, done := true } := by
  simp [reject, finish, raiseError_eq]

/-- R21, R51: the register map, from offset to register. -/
theorem registerAt_cases (off : BitVec 8) (ha : off.toNat % 4 = 0) :
    (∃ j : Fin 4, off.toNat = 4 * j.val ∧ registerAt off = .key j) ∨
    (∃ j : Fin 4, off.toNat = 0x10 + 4 * j.val ∧ registerAt off = .state j) ∨
    (off.toNat = 0x20 ∧ registerAt off = .cmd) ∨
    (off.toNat = 0x24 ∧ registerAt off = .status) ∨
    (off.toNat = 0x28 ∧ registerAt off = .ctrl) ∨
    (off.toNat = 0x2C ∧ registerAt off = .phase) ∨
    (∃ i : Fin 44, off.toNat = 0x40 + 4 * i.val ∧ registerAt off = .rk i) ∨
    (((0x30 ≤ off.toNat ∧ off.toNat < 0x40) ∨ 0xF0 ≤ off.toNat) ∧ registerAt off = .reserved) := by
  have hlt := off.isLt
  by_cases h1 : off.toNat < 0x10
  · exact .inl ⟨⟨off.toNat / 4, by omega⟩, by dsimp only; omega, by simp [registerAt, h1]⟩
  by_cases h2 : off.toNat < 0x20
  · exact .inr (.inl ⟨⟨(off.toNat - 0x10) / 4, by omega⟩, by dsimp only; omega,
      by simp [registerAt, h1, h2]⟩)
  by_cases h3 : off.toNat < 0x24
  · exact .inr (.inr (.inl ⟨by omega, by simp [registerAt, h1, h2, h3]⟩))
  by_cases h4 : off.toNat < 0x28
  · exact .inr (.inr (.inr (.inl ⟨by omega, by simp [registerAt, h1, h2, h3, h4]⟩)))
  by_cases h5 : off.toNat < 0x2C
  · exact .inr (.inr (.inr (.inr (.inl ⟨by omega, by simp [registerAt, h1, h2, h3, h4, h5]⟩))))
  by_cases h6 : off.toNat < 0x30
  · exact .inr (.inr (.inr (.inr (.inr (.inl
      ⟨by omega, by simp [registerAt, h1, h2, h3, h4, h5, h6]⟩)))))
  by_cases h7 : off.toNat < 0x40
  · exact .inr (.inr (.inr (.inr (.inr (.inr (.inr
      ⟨.inl ⟨by omega, h7⟩, by simp [registerAt, h1, h2, h3, h4, h5, h6, h7]⟩))))))
  by_cases h8 : off.toNat < 0xF0
  · exact .inr (.inr (.inr (.inr (.inr (.inr (.inl ⟨⟨(off.toNat - 0x40) / 4, by omega⟩,
      by dsimp only; omega, by simp [registerAt, h1, h2, h3, h4, h5, h6, h7, h8]⟩))))))
  · exact .inr (.inr (.inr (.inr (.inr (.inr (.inr
      ⟨.inr (by omega), by simp [registerAt, h1, h2, h3, h4, h5, h6, h7, h8]⟩))))))

/-- R23: reading a register of a group after a write to one. -/
theorem setReg_reg (b : Block) (j m : Fin 4) (v : Word) :
    (b.setReg j v).reg m = if m = j then v else b.reg m := by
  fin_cases j <;> fin_cases m <;> rfl

/-- R55: the step of an admitted write. -/
theorem step_write {s : State} {off : BitVec 8} {v : Word} {rest : List Event}
    (h : s.events = .write off 4 v :: rest) (ha : off.toNat % 4 = 0) :
    step s = .next ((registerAt off).write v { s with events := rest }) := by
  rw [step_cons h]; simp [happen, busWrite, admitted, ha]

/-- R54, R57: the step of an admitted read. -/
theorem step_read {s : State} {off : BitVec 8} {rest : List Event}
    (h : s.events = .read off 4 :: rest) (ha : off.toNat % 4 = 0) :
    step s = .next (
      if s.pending.isSome && (registerAt off).drawnWhenBusy then
        { s with events := rest, reply := some ⟨4, Config.draw s.draws⟩, draws := s.draws + 1 }
      else { s with events := rest, reply := some ⟨4, (registerAt off).value s⟩ }) := by
  have hv (r : Register) : r.value { s with events := rest } = r.value s := by cases r <;> rfl
  rw [step_cons h]; simp [happen, busRead, admitted, ha, busy, hv]

/-- R53: the step of a bad read. -/
theorem step_badRead {s : State} {off : BitVec 8} {n : Nat} {rest : List Event}
    (h : s.events = .read off n :: rest) (hb : admitted off n = false) :
    step s = .next { raiseError .busAccess { s with events := rest } with reply := some ⟨n, 0⟩ } := by
  rw [step_cons h]; simp [happen, busRead, hb]

/-- R53: the step of a bad write. -/
theorem step_badWrite {s : State} {off : BitVec 8} {n : Nat} {v : Word} {rest : List Event}
    (h : s.events = .write off n v :: rest) (hb : admitted off n = false) :
    step s = .next (raiseError .busAccess { s with events := rest }) := by
  rw [step_cons h]; simp [happen, busWrite, hb]

/-- R53: what an admitted access is. -/
theorem admitted_iff (off : BitVec 8) (n : Nat) :
    admitted off n = true ↔ n = 4 ∧ off.toNat % 4 = 0 := by
  simp [admitted]

/-- R59: a register write leaves the bus's own fields alone. -/
theorem write_bus_fields (r : Register) (v : Word) (s : State) :
    (r.write v s).events = s.events ∧ (r.write v s).reply = s.reply ∧
      (r.write v s).draws = s.draws := by
  cases r <;> simp only [Register.write]
  · rcases writeKey_cases _ v s with ⟨_, h⟩ | ⟨_, h⟩ <;> rw [h] <;> simp
  · rcases writeState_cases _ v s with ⟨_, h⟩ | ⟨_, h⟩ <;> rw [h] <;> simp
  · rcases issue_cases v s with ⟨_, h⟩ | ⟨_, _, h⟩ | ⟨_, _, _, h⟩ <;> rw [h] <;> simp
  · simp
  · simp
  all_goals simp

/-- R59: a register write does not read the bus's own fields. -/
theorem write_with_bus_fields (r : Register) (v : Word) (s : State) (es : List Event)
    (rp : Option Reply) (d : Nat) :
    r.write v { s with events := es, reply := rp, draws := d } =
      { r.write v s with events := es, reply := rp, draws := d } := by
  cases r <;> simp only [Register.write]
  · cases h : s.pending <;> simp [writeKey, busy, h, raiseError_eq, firstError]
  · cases h : s.pending <;> simp [writeState, busy, h, raiseError_eq, firstError]
  · cases h : s.pending with
    | some c => simp [issue, h, raiseError_eq, firstError]
    | none =>
      cases hd : decodeCommand v s.keyValid s.phase <;>
        simp [issue, h, hd, reject_eq, firstError]
  · rfl
  · rfl

/-- R50: every offset of the window is reached by its host address. -/
theorem windowOffset_hostAddress (off : BitVec 8) : windowOffset (hostAddress off) = some off := by
  have := off.isLt
  simp [windowOffset, hostAddress]
  omega

end Sys2Proof.Machine
end

