-- ==== Sys2Proof/Laws/Step.lean ====
section
/-! SUPPORT. Everything a step can do, said once (`step_cases`), and what holds of every command
(`exec_frame`). -/

namespace Sys2Proof.Machine

/-- R147, R173: the two outcomes of ADDRK's meaning. -/
theorem execAddrk_cases (n : BitVec 4) (s : State) :
    (∃ e, execAddrk n s = .next (reject e s)) ∨
    (∃ r, s.keyValid = true ∧ roundIndex n = some r ∧
      execAddrk n s = .next (finish { s with st := addRoundKey s.st (roundKey s.rk r) })) := by
  unfold execAddrk
  cases hr : roundIndex n with
  | none => exact .inl ⟨_, rfl⟩
  | some r =>
    cases hk : s.keyValid with
    | false => exact .inl ⟨_, rfl⟩
    | true => exact .inr ⟨r, rfl, rfl, rfl⟩

/-- R175: the two outcomes of STEP's meaning. -/
theorem execStep_cases (s : State) :
    (∃ e, execStep s = .next (reject e s)) ∨
    (∃ p : Fin 41, s.keyValid = true ∧ p.val = s.phase.val + 1 ∧
      execStep s = .next (finish { s with st := transform s.rk p s.st, phase := p })) := by
  unfold execStep
  cases hk : s.keyValid
  · exact .inl ⟨_, rfl⟩
  · by_cases hp : s.phase.val + 1 < 41
    · exact .inr ⟨⟨s.phase.val + 1, hp⟩, rfl, rfl, by simp [hp]⟩
    · exact .inl ⟨_, by simp [hp]; rfl⟩

/-- R81: every command completes. -/
theorem exec_next (i : Instr) (s : State) : ∃ t, exec i s = .next t := by
  cases i with
  | addrk n => rcases execAddrk_cases n s with ⟨_, h⟩ | ⟨_, _, _, h⟩ <;> exact ⟨_, h⟩
  | step => rcases execStep_cases s with ⟨_, h⟩ | ⟨_, _, _, h⟩ <;> exact ⟨_, h⟩
  | _ => exact ⟨_, rfl⟩

/-- R81: what every command leaves, whichever it is: nothing is pending, DONE is set, IRQ_EN and the
bus's own fields stay, and an error already recorded is kept. -/
theorem exec_frame {i : Instr} {s t : State} (h : exec i s = .next t) :
    t.pending = none ∧ t.done = true ∧ t.irqEn = s.irqEn ∧ t.events = s.events ∧
      t.reply = s.reply ∧ t.draws = s.draws ∧
      (s.err = true → t.err = true ∧ t.errcode = s.errcode) := by
  have hf (u : State) (hu : t = finish u) (hi : u.irqEn = s.irqEn) (he : u.events = s.events)
      (hr : u.reply = s.reply) (hd : u.draws = s.draws)
      (hk : s.err = true → u.err = true ∧ u.errcode = s.errcode) :
      t.pending = none ∧ t.done = true ∧ t.irqEn = s.irqEn ∧ t.events = s.events ∧
        t.reply = s.reply ∧ t.draws = s.draws ∧
        (s.err = true → t.err = true ∧ t.errcode = s.errcode) := by
    subst hu
    exact ⟨rfl, rfl, hi, he, hr, hd, hk⟩
  have hrej (e : ErrorCode) (hu : t = reject e s) := hf (raiseError e s) hu (by simp) (by simp)
    (by simp) (by simp) (fun he => by simp [he])
  cases i with
  | addrk n =>
    rcases execAddrk_cases n s with ⟨e, hx⟩ | ⟨r, _, _, hx⟩ <;>
      simp only [exec, hx, Host.Outcome.next.injEq] at h
    · exact hrej e h.symm
    · exact hf _ h.symm rfl rfl rfl rfl fun he => ⟨he, rfl⟩
  | step =>
    rcases execStep_cases s with ⟨e, hx⟩ | ⟨r, _, _, hx⟩ <;>
      simp only [exec, hx, Host.Outcome.next.injEq] at h
    · exact hrej e h.symm
    · exact hf _ h.symm rfl rfl rfl rfl fun he => ⟨he, rfl⟩
  | _ =>
    simp only [exec, execNop, execExpand, execEncrypt, execSubbytes, execShiftrows, execMixcolumns,
      execTraceStart, execClear, Host.Outcome.next.injEq] at h
    exact hf _ h.symm rfl rfl rfl rfl fun he => ⟨he, rfl⟩

/-- R59: everything one step can do. -/
theorem step_cases {s t : State} (h : step s = .next t) :
    (coreNext s ∧ s.pending = none ∧ t = { s with events := s.events.tail }) ∨
    (∃ i, completes s i ∧ exec i { s with events := s.events.tail } = .next t) ∨
    (∃ c e, coreNext s ∧ s.pending = some c ∧ decodeWord c = .error e ∧
      t = reject e { s with events := s.events.tail }) ∨
    (resetNext s ∧ t = hardwareReset { s with events := s.events.tail }) ∨
    (∃ off n rest, s.events = .read off n :: rest ∧ t = busRead off n { s with events := rest }) ∨
    (∃ off v rest, writeNext s off v ∧ s.events = .write off 4 v :: rest ∧
      t = (registerAt off).write v { s with events := rest }) ∨
    (∃ off n v rest, s.events = .write off n v :: rest ∧ admitted off n = false ∧
      t = raiseError .busAccess { s with events := rest }) := by
  have hcore (hn : coreNext s) (hs : coreTurn { s with events := s.events.tail } = .next t) :
      (coreNext s ∧ s.pending = none ∧ t = { s with events := s.events.tail }) ∨
      (∃ i, completes s i ∧ exec i { s with events := s.events.tail } = .next t) ∨
      (∃ c e, coreNext s ∧ s.pending = some c ∧ decodeWord c = .error e ∧
        t = reject e { s with events := s.events.tail }) := by
    rcases coreTurn_cases { s with events := s.events.tail } with
      ⟨hp, e⟩ | ⟨c, i, hp, hd, e⟩ | ⟨c, e', hp, hd, e⟩ <;> rw [e] at hs
    · exact .inl ⟨hn, hp, by simpa using hs.symm⟩
    · exact .inr (.inl ⟨i, ⟨hn, c, hp, hd⟩, hs⟩)
    · exact .inr (.inr ⟨c, e', hn, hp, hd, by simpa using hs.symm⟩)
  cases hev : s.events with
  | nil =>
    rw [step_nil hev] at h
    have : ({ s with events := s.events.tail } : State) = s := by
      obtain ⟨_, _, _, _, _, _, _, _, _, _, es, _, _⟩ := s
      simp only at hev
      subst hev
      rfl
    rcases hcore (.inl hev) (by rw [this]; exact h) with h | h | h
    · exact .inl (by simpa [hev] using h)
    · exact .inr (.inl (by simpa [hev] using h))
    · exact .inr (.inr (.inl (by simpa [hev] using h)))
  | cons e rest =>
    cases e with
    | complete =>
      rw [step_cons hev] at h
      rcases hcore (.inr ⟨rest, hev⟩) (by rw [hev]; exact h) with h | h | h
      · exact .inl (by simpa [hev] using h)
      · exact .inr (.inl (by simpa [hev] using h))
      · exact .inr (.inr (.inl (by simpa [hev] using h)))
    | reset =>
      rw [step_cons hev] at h
      exact .inr (.inr (.inr (.inl ⟨⟨rest, hev⟩, by simpa [happen] using h.symm⟩)))
    | read off n =>
      rw [step_cons hev] at h
      exact .inr (.inr (.inr (.inr (.inl ⟨off, n, rest, rfl, by simpa [happen] using h.symm⟩))))
    | write off n v =>
      cases ha : admitted off n with
      | false =>
        rw [step_badWrite hev ha] at h
        exact .inr (.inr (.inr (.inr (.inr (.inr
          ⟨off, n, v, rest, rfl, ha, by simpa using h.symm⟩)))))
      | true =>
        obtain ⟨rfl, hoff⟩ := (admitted_iff off n).1 ha
        rw [step_write hev hoff] at h
        exact .inr (.inr (.inr (.inr (.inr (.inl
          ⟨off, v, rest, ⟨hoff, rest, hev⟩, rfl, by simpa using h.symm⟩)))))

/-- A run of `k + 1` steps is one step and a run of `k`. -/
theorem run_succ {s t : State} (k : Nat) (h : step s = .next t) :
    Host.Core.run core (k + 1) s = Host.Core.run core k t := by
  simp only [Host.Core.run, core, h]

end Sys2Proof.Machine
end

