-- ==== Sys2Proof/Tests/Slice0.lean ====
section
/-! SUPPORT. The model's own tests.  Expected values are those of 95_test_vectors.md, named by the vector's
id, or are worked out by hand from the rule named.  The last part shows, for each statement with
hypotheses, concrete inputs that meet them. -/

set_option maxRecDepth 100000

open Sys2Proof Sys2Proof.Machine

namespace Sys2Proof.Tests

/-! ### Helpers -/

/-- R14: a block as its 32 hex digits, byte 0 first. -/
def blk (n : Nat) : Block :=
  ⟨BitVec.ofNat 32 (n >>> 96), BitVec.ofNat 32 (n >>> 64), BitVec.ofNat 32 (n >>> 32), BitVec.ofNat 32 n⟩

/-- The key, plaintext and ciphertext of L1-1. -/
def key1 : Block := blk 0x000102030405060708090a0b0c0d0e0f
def plain1 : Block := blk 0x00112233445566778899aabbccddeeff
def cipher1 : Block := blk 0x69c4e0d86a7b0430d8cdb78070b4c55a

/-- L2-KS1: the schedule of `key1`, round key by round key. -/
def schedule1 : Vector Word 44 :=
  ⟨(([0x00010203, 0x04050607, 0x08090a0b, 0x0c0d0e0f, 0xd6aa74fd, 0xd2af72fa, 0xdaa678f1, 0xd6ab76fe] ++
     [0xb692cf0b, 0x643dbdf1, 0xbe9bc500, 0x6830b3fe, 0xb6ff744e, 0xd2c2c9bf, 0x6c590cbf, 0x0469bf41] ++
     [0x47f7f7bc, 0x95353e03, 0xf96c32bc, 0xfd058dfd, 0x3caaa3e8, 0xa99f9deb, 0x50f3af57, 0xadf622aa] ++
     [0x5e390f7d, 0xf7a69296, 0xa7553dc1, 0x0aa31f6b, 0x14f9701a, 0xe35fe28c, 0x440adf4d, 0x4ea9c026] ++
     [0x47438735, 0xa41c65b9, 0xe016baf4, 0xaebf7ad2, 0x549932d1, 0xf0855768, 0x1093ed9c, 0xbe2c974e] ++
     [0x13111d7f, 0xe3944a17, 0xf307a78b, 0x4d2b30c5]) : List Word).toArray, rfl⟩

/-- Reset, with a key and a State loaded. -/
def loaded (k p : Block) : Machine.State := { State.reset with key := k, st := p }

/-- `key1` expanded, with `p` in STATE and the trace at `ph`. -/
def keyed (p : Block) (ph : Fin 41) : Machine.State :=
  { loaded key1 p with rk := schedule1, keyValid := true, phase := ph }

/-- A state with these happenings next. -/
def next (s : Machine.State) (evs : List Event) : Machine.State := { s with events := evs }

/-- A state with `i` pending and the core next. -/
def pend (s : Machine.State) (i : Instr) : Machine.State :=
  { s with pending := some (encode i), events := [.complete] }

/-- The state a step answers, if it answers one. -/
def stateOf (r : Result) : Option Machine.State :=
  match r with
  | .next t => some t
  | .fault _ => none
  | .refused _ => none

/-- STATUS after one happening at a state. -/
def statusAfter (s : Machine.State) (e : Event) : Option Word :=
  (stateOf (step (next s [e]))).map statusValue

/-- What one read with no command pending returns. -/
def readOf (s : Machine.State) (off : BitVec 8) : Option Word :=
  ((stateOf (step (next s [rd off]))).bind (·.reply)).map (·.value)

/-! ### Well-formedness -/

theorem test_addrk_ten_wellFormed : (Instr.addrk 10).wellFormed = true := by decide
theorem test_addrk_eleven_refused : (Instr.addrk 11).wellFormed = false := by decide
theorem test_addrk_fifteen_refused : (Instr.addrk 15).wellFormed = false := by decide

/-! ### Decoding: RSV1 (20 bits), RND, RSV0 and OP (4 bits each) written out from R70 and R72 -/

theorem test_decode_nop : decodeWord (0#20 ++ 0b0000#4 ++ 0b0000#4 ++ 0b0000#4) = .ok .nop := by rfl
theorem test_decode_expand : decodeWord (0#20 ++ 0b0000#4 ++ 0b0000#4 ++ 0b0001#4) = .ok .expand := by rfl
theorem test_decode_encrypt : decodeWord (0#20 ++ 0b0000#4 ++ 0b0000#4 ++ 0b0010#4) = .ok .encrypt := by rfl
theorem test_decode_subbytes : decodeWord (0#20 ++ 0b0000#4 ++ 0b0000#4 ++ 0b0011#4) = .ok .subbytes := by
  rfl
theorem test_decode_shiftrows : decodeWord (0#20 ++ 0b0000#4 ++ 0b0000#4 ++ 0b0100#4) = .ok .shiftrows := by
  rfl
theorem test_decode_mixcolumns :
    decodeWord (0#20 ++ 0b0000#4 ++ 0b0000#4 ++ 0b0101#4) = .ok .mixcolumns := by rfl
theorem test_decode_addrk_one : decodeWord (0#20 ++ 0b0001#4 ++ 0b0000#4 ++ 0b0110#4) = .ok (.addrk 1) := by
  rfl
theorem test_decode_addrk_ten : decodeWord (0#20 ++ 0b1010#4 ++ 0b0000#4 ++ 0b0110#4) = .ok (.addrk 10) := by
  rfl
theorem test_decode_traceStart :
    decodeWord (0#20 ++ 0b0000#4 ++ 0b0000#4 ++ 0b0111#4) = .ok .traceStart := by rfl
theorem test_decode_step : decodeWord (0#20 ++ 0b0000#4 ++ 0b0000#4 ++ 0b1000#4) = .ok .step := by rfl
theorem test_decode_clear : decodeWord (0#20 ++ 0b0000#4 ++ 0b0000#4 ++ 0b1111#4) = .ok .clear := by rfl

/-- Each illegal class of R74, at one word: a reserved opcode at either end of its range, RSV0, RSV1, RND
on EXPAND; and ADDRK 11. -/
theorem test_decode_rejects :
    ([0x00000009, 0x0000000E, 0x00000013, 0x80000001, 0x00000101, 0x00000B06] : List Word).map
      (fun c => (decodeWord c).toOption) = [none, none, none, none, none, none] := by decide

theorem test_decodeTableWord_addrk : decodeTableWord 32 0x00000A06 = some (.addrk 10) := by decide
theorem test_decodeTableWord_high_bits_dropped : decodeTableWord 8 0xFF01 = some .expand := by decide

/-! ### The mathematics -/

/-- L2-F2. -/
theorem test_gmul :
    gmul 0x57 0x83 = 0xc1 ∧ gmul 0x57 0x13 = 0xfe ∧ gmul 0x02 0x80 = 0x1b ∧ gmul 0xff 0xff = 0x13 := by decide

/-- L2-F3. -/
theorem test_ginv : ginv 0x53 = 0xca ∧ ginv 0x02 = 0x8d ∧ ginv 0x00 = 0x00 := by decide

/-- L2-SB1. -/
theorem test_sbox :
    sbox 0x0f = 0x76 ∧ sbox 0x10 = 0xca ∧ sbox 0x7f = 0xd2 ∧ sbox 0x80 = 0xcd ∧ sbox 0xc9 = 0xdd := by decide

/-- L2-MC1. -/
theorem test_mixColumn :
    mixColumn 0xdb135345 = 0x8e4da1bc ∧ mixColumn 0x80000000 = 0x1b80809b ∧
      mixColumn 0x000000ff = 0xffff1ae5 := by decide

/-! ### The commands, each at its completion -/

/-- L2-NOP1. -/
theorem test_nop : statusAfter { pend .reset .nop with irqEn := true } .complete = some 0x00000102 := by
  decide

/-- L2-KS1, all 44 words. -/
theorem test_expand : (stateOf (step (pend (loaded key1 plain1) .expand))).map (·.rk) = some schedule1 := by
  decide

/-- L2-KS4: the last round key of the all-ones key. -/
theorem test_expand_ones :
    roundKey (expand (blk 0xffffffffffffffffffffffffffffffff)) 10 = blk 0xd60a3588e472f07b82d2d7858cd7c326 := by
  decide

/-- L1-1. -/
theorem test_encrypt :
    (stateOf (step (pend (loaded key1 plain1) .encrypt))).map
      (fun t => (t.st, phaseValue t.phase, statusValue t)) = some (cipher1, 0x0000CA28, 0x00000006) := by decide

/-- L2-ENC7. -/
theorem test_encrypt_other_key :
    (stateOf (step (pend (loaded (blk 0x000102030405060708090a0b0c0d0e0e) plain1) .encrypt))).map (·.st) =
      some (blk 0x74db6c596f02c433989fb6c9cd317f15) := by decide

/-- L2-TRACE, rows 1 and 2. -/
theorem test_subbytes :
    (stateOf (step (pend (keyed (blk 0x00102030405060708090a0b0c0d0e0f0) 1) .subbytes))).map
      (fun t => (t.st, t.phase)) = some (blk 0x63cab7040953d051cd60e0e7ba70e18c, 1) := by decide

/-- 95_test_vectors.md, ShiftRows. -/
theorem test_shiftrows :
    (stateOf (step (pend (loaded key1 key1) .shiftrows))).map (·.st) =
      some (blk 0x00050a0f04090e03080d02070c01060b) := by decide

/-- L2-MC2. -/
theorem test_mixcolumns :
    (stateOf (step (pend (loaded key1 key1) .mixcolumns))).map (·.st) =
      some (blk 0x02070005060304010a0f080d0e0b0c09) := by decide

/-- 95_test_vectors.md, AddRoundKey. -/
theorem test_addrk_ten :
    (stateOf (step (pend (keyed (blk 0x7ad5fda789ef4e272bca100b3d9ff59f) 0) (.addrk 10)))).map
      (fun t => (t.st, t.phase)) = some (cipher1, 0) := by decide
theorem test_addrk_zero :
    (stateOf (step (pend (keyed plain1 0) (.addrk 0)))).map (·.st) =
      some (blk 0x00102030405060708090a0b0c0d0e0f0) := by decide

/-- R174: the position rewinds, the schedule is the key's, and STATE stays. -/
theorem test_traceStart :
    (stateOf (step (pend { loaded key1 plain1 with phase := 17 } .traceStart))).map
      (fun t => (t.st, t.rk, t.phase, t.keyValid)) = some (plain1, schedule1, 0, true) := by decide

/-- L2-TRACE, row 0 to 1 and row 39 to 40. -/
theorem test_step_first :
    (stateOf (step (pend (keyed plain1 0) .step))).map (fun t => (t.st, phaseValue t.phase)) =
      some (blk 0x00102030405060708090a0b0c0d0e0f0, 0x00004001) := by decide
theorem test_step_last :
    (stateOf (step (pend (keyed (blk 0x7ad5fda789ef4e272bca100b3d9ff59f) 39) .step))).map
      (fun t => (t.st, phaseValue t.phase)) = some (cipher1, 0x0000CA28) := by decide

/-- L2-CLR3, and what CLEAR zeroes. -/
theorem test_clear :
    (stateOf (step (pend { keyed plain1 9 with err := true, errcode := 5, irqEn := true } .clear))).map
      (fun t => (statusValue t, t.key, t.st, t.rk, t.phase)) =
      some (0x0000015A, .zero, .zero, Vector.replicate 44 0, 0) := by decide

/-- The first step after reset with a command word placed runs that command: here NOP, and CLEAR. -/
theorem test_withFetchWord :
    (stateOf (step (State.reset.withFetchWord 32 0x00000000))).map statusValue = some 0x00000002 ∧
    step (State.reset.withFetchWord 32 0x0000000F) = .next { State.reset with done := true } := by
  exact ⟨by decide, rfl⟩

/-! ### Errors and registers -/

/-- L2-E1 to L2-E5, L2-E7 and L2-E8: STATUS after a command word written at reset. -/
theorem test_rejected_words :
    ([0x00000009, 0x0000000E, 0x00000013, 0x80000001, 0x00000101, 0x00000F06, 0x00000106, 0x00000008] :
      List Word).map (fun c => statusAfter .reset (wr offCmd c)) =
    [some 0x3A, some 0x3A, some 0x3A, some 0x3A, some 0x3A, some 0x4A, some 0x5A, some 0x5A] := by decide

/-- L2-E6 and L2-E9, and the NO_KEY before SEQ_END case of L2-STEP. -/
theorem test_rejected_with_key :
    statusAfter (keyed plain1 0) (wr offCmd 0x00000B06) = some 0x4E ∧
    statusAfter (keyed plain1 40) (cmd .step) = some 0x6E ∧
    statusAfter { keyed plain1 40 with keyValid := false } (cmd .step) = some 0x5A := by decide

/-- L2-E10, L2-E11, L2-E12. -/
theorem test_bad_accesses :
    statusAfter .reset (.read 0x25 1) = some 0x18 ∧ statusAfter .reset (.write 0x02 2 0xffff) = some 0x18 ∧
      statusAfter .reset (.write 0x22 4 0x00000002) = some 0x18 := by decide

/-- L2-E13, L2-E14: the second BUSY error finds the first one kept, as does any error. -/
theorem test_busy_writes :
    statusAfter (pend (loaded key1 plain1) .encrypt) (wr (offState 0) 0xdeadbeef) = some 0x29 ∧
    statusAfter { pend .reset .nop with err := true, errcode := 5 } (wr offCmd 0) = some 0x59 := by decide

/-- L2-ST1 to L2-ST3. -/
theorem test_status_writes :
    statusAfter { State.reset with done := true, err := true, errcode := 5 } (wr offStatus 2) = some 0x58 ∧
    statusAfter { State.reset with done := true, err := true, errcode := 5 } (wr offStatus 8) = some 0x02 ∧
    statusAfter { State.reset with done := true, err := true, errcode := 5, keyValid := true }
      (wr offStatus 0xfffffff5) = some 0x5E := by decide

/-- L2-CTRL1, L2-CTRL2. -/
theorem test_ctrl_writes :
    (stateOf (step (next .reset [wr offCtrl 0xffffffff]))).map ctrlValue = some 0x00000001 ∧
    statusAfter { State.reset with done := true } (wr offCtrl 1) = some 0x102 := by decide

/-- L2-E17 to L2-E19, L2-E21. -/
theorem test_ignored_writes :
    step (next .reset [wr 0x30 0x12345678]) = .next .reset ∧
    step (next .reset [wr (offRk 0) 0x12345678]) = .next .reset ∧
    step (next .reset [wr offPhase 0x28]) = .next .reset ∧
    step (next (keyed plain1 3) [wr (offKey 2) 0x08090a0b]) =
      .next { keyed plain1 3 with keyValid := false } := ⟨rfl, rfl, rfl, rfl⟩

/-- R21, R54: a register at each end of each group. -/
theorem test_reads :
    ([0x00, 0x0C, 0x10, 0x1C, 0x20, 0x24, 0x28, 0x2C, 0x30, 0x3C, 0x40, 0xEC, 0xF0, 0xFC] :
      List (BitVec 8)).map (readOf { keyed plain1 40 with irqEn := true }) =
    [some 0x00010203, some 0x0c0d0e0f, some 0x00112233, some 0xccddeeff, some 0, some 0x00000004,
      some 0x00000001, some 0x0000CA28, some 0, some 0, some 0x00010203, some 0x4d2b30c5, some 0, some 0] := by
  decide

/-- L2-BUSYREAD: two reads of STATE0 while ENCRYPT is pending are two draws. -/
theorem test_busy_reads_are_draws :
    step (next (pend .reset .encrypt) [rd (offState 0)]) =
      .next { next (pend .reset .encrypt) [] with reply := some ⟨4, Config.draw 0⟩, draws := 1 } ∧
    step { next (pend .reset .encrypt) [rd (offState 0)] with draws := 1 } =
      .next { next (pend .reset .encrypt) [] with reply := some ⟨4, Config.draw 1⟩, draws := 2 } := ⟨rfl, rfl⟩

/-- L2-RST2: reset with ENCRYPT pending. -/
theorem test_reset_while_pending :
    step (next (pend (keyed plain1 5) .encrypt) [.reset]) = .next .reset := rfl

/-! ### The hypotheses of each statement can be met -/

/-- The window offsets at the ends of every group of registers (R21). -/
def boundaries : List (BitVec 8) :=
  [0x00, 0x0C, 0x10, 0x1C, 0x20, 0x24, 0x28, 0x2C, 0x30, 0x3C, 0x40, 0xEC, 0xF0, 0xFC]

theorem witness_DecodeIffEncode :
    (Instr.addrk 10).wellFormed = true ∧ decodeWord (encode (.addrk 10)) = .ok (.addrk 10) := ⟨by decide, rfl⟩

/-- One word for each illegal class, at the ends of the opcode range and of RND. -/
theorem witness_IllegalWordsRejected :
    (0x00001000 : Word).extractLsb' 12 20 ≠ 0 ∧ (0x80000000 : Word).extractLsb' 12 20 ≠ 0 ∧
    (0x00000010 : Word).extractLsb' 4 4 ≠ 0 ∧ 0x9 ≤ (0x00000009 : Word).extractLsb' 0 4 ∧
    (0x0000000E : Word).extractLsb' 0 4 ≤ 0xE ∧ (0x00000101 : Word).extractLsb' 8 4 ≠ 0 ∧
    (0x00000101 : Word).extractLsb' 0 4 ≠ 0x6 ∧ (10 : BitVec 4) < 11 ∧
    (0x00000B06 : Word) = 0x00000006 ||| ((11 : BitVec 4).setWidth 32 <<< 8) ∧
    (0x00000F06 : Word) = 0x00000006 ||| ((15 : BitVec 4).setWidth 32 <<< 8) := by decide

theorem witness_CmdWriteIssues :
    ((next (pend .reset .nop) [.write 0x20 4 5]).events = [.write 0x20 4 5] ∧
      (next (pend .reset .nop) [.write 0x20 4 5]).pending = some 0) ∧
    ((next .reset [.write 0x20 4 5]).pending = none ∧ decodeCommand 5 false 0 = .ok .mixcolumns) ∧
    decodeCommand 6 false 0 = .error .noKey ∧ decodeCommand 8 true 40 = .error .seqEnd ∧
    ((next .reset [.write 0x20 4 0x9]).events = [.write 0x20 4 0x9] ∧
      (next .reset [.write 0x20 4 0x9]).pending = none ∧
      (0x80000000 : Word).extractLsb' 12 20 ≠ 0 ∧ (0x00000010 : Word).extractLsb' 4 4 ≠ 0 ∧
      (0x9 ≤ (0x00000009 : Word).extractLsb' 0 4 ∧ (0x00000009 : Word).extractLsb' 0 4 ≤ 0xE) ∧
      (0x9 ≤ (0x0000000E : Word).extractLsb' 0 4 ∧ (0x0000000E : Word).extractLsb' 0 4 ≤ 0xE) ∧
      ((0x00000101 : Word).extractLsb' 8 4 ≠ 0 ∧ (0x00000101 : Word).extractLsb' 0 4 ≠ 0x6)) := by
  exact ⟨by decide, ⟨by decide, rfl⟩, rfl, rfl, by decide⟩

theorem witness_StepRunsPendingCommand :
    ((next (pend .reset .clear) []).events = [] ∧ (next (pend .reset .clear) []).pending = some 0xF ∧
      decodeWord 0xF = .ok .clear) ∧
    ((pend .reset .clear).events = [.complete] ∧ (pend .reset .clear).pending = some 0xF) ∧
    (State.reset.events = [] ∧ State.reset.pending = none) ∧
    ((next .reset [.complete]).events = [.complete] ∧ (next .reset [.complete]).pending = none) :=
  ⟨⟨rfl, rfl, rfl⟩, ⟨rfl, rfl⟩, ⟨rfl, rfl⟩, ⟨rfl, rfl⟩⟩

theorem witness_IssueThenCompleteRunsInstr :
    (keyed plain1 39).pending = none ∧ Instr.step.wellFormed = true ∧
      Instr.step.stateError (keyed plain1 39).keyValid (keyed plain1 39).phase = none ∧
      (next (keyed plain1 39) [cmd .step, .complete]).events = cmd .step :: .complete :: [] := by
  exact ⟨rfl, rfl, rfl, rfl⟩

/-- L2-KS1, again: the schedule R27 asks of a state with KEY_VALID. -/
theorem keyed_schedule (p : Block) (ph : Fin 41) : (keyed p ph).rk = expand (keyed p ph).key := by
  change schedule1 = expand key1
  decide

/-- A state with a pending STEP one before the end of the trace meets the invariants. -/
theorem pending_step_inv : StateInv (pend (keyed plain1 39) .step) where
  errcode_zero _ := rfl
  errcode_le := by decide
  pending_accepted := by
    rintro c ⟨⟩
    exact ⟨.step, rfl⟩
  schedule_valid _ := keyed_schedule plain1 39

theorem witness_AcceptedCommandNeverFails :
    ∃ (s : Machine.State) (c : Word), StateInv s ∧ coreNext s ∧ s.pending = some c :=
  ⟨pend (keyed plain1 39) .step, encode .step, pending_step_inv, .inr ⟨[], rfl⟩, rfl⟩

theorem witness_StepKeepsInvariants : ∃ s t : Machine.State, StateInv s ∧ step s = .next t :=
  ⟨_, _, pending_step_inv, rfl⟩

theorem witness_ExpandFollowsRecurrence : 4 ≤ 4 ∧ 4 < 44 ∧ 4 ≤ 43 ∧ 43 < 44 := by decide

theorem witness_ScheduleWordFunctions : (3 : Fin 4) ≠ 0 := by decide

theorem witness_AddrkXorsRoundKey :
    (0 : BitVec 4).toNat = (0 : Fin 11).val ∧ (10 : BitVec 4).toNat = (10 : Fin 11).val ∧
      (keyed plain1 0).keyValid = true := ⟨rfl, rfl, rfl⟩

/-- The first and last phase, and one of each remainder of the transform table. -/
theorem witness_StepAppliesNextTransform :
    (keyed plain1 0).keyValid = true ∧ (1 : Fin 41).val = (keyed plain1 0).phase.val + 1 ∧ 1 % 4 = 1 ∧
      (40 : Fin 41).val = (keyed plain1 39).phase.val + 1 ∧
      (2 : Fin 41).val = (keyed plain1 1).phase.val + 1 ∧ 2 % 4 = 2 ∧
      (38 : Fin 41).val = (keyed plain1 37).phase.val + 1 ∧ 38 % 4 = 2 ∧
      (39 : Fin 41).val = (keyed plain1 38).phase.val + 1 ∧ 39 % 4 = 3 ∧
      (36 : Fin 41).val = (keyed plain1 35).phase.val + 1 ∧ 36 % 4 = 0 ∧ 36 ≠ 40 := by decide

theorem witness_AddrkAndStepTurnedAway :
    State.reset.pending = none ∧ (10 : BitVec 4) < 11 ∧ (10 : BitVec 4) < 15 ∧ (10 : BitVec 4) ≤ 10 ∧
      State.reset.keyValid = false ∧ (keyed plain1 40).pending = none ∧ (keyed plain1 40).keyValid = true ∧
      (keyed plain1 40).phase = 40 ∧
      (next .reset [cmd (.addrk 11)]).events = cmd (.addrk 11) :: [] ∧
      (next .reset [cmd (.addrk 10)]).events = cmd (.addrk 10) :: [] ∧
      (next .reset [cmd .step]).events = cmd .step :: [] ∧
      (next (keyed plain1 40) [cmd .step]).events = cmd .step :: [] := by decide

theorem witness_ExecRepeatsIssueChecks :
    (10 : BitVec 4) < 11 ∧ (10 : BitVec 4) ≤ 10 ∧ State.reset.keyValid = false ∧
      (keyed plain1 40).keyValid = true ∧ (keyed plain1 40).phase = 40 := by decide

/-- Every boundary offset can be read; the clauses of the statement do not overlap there. -/
theorem witness_ReadReturnsRegister :
    ∀ off ∈ boundaries, (next (keyed plain1 7) [.read off 4]).events = .read off 4 :: [] ∧
      (next (keyed plain1 7) [.read off 4]).pending = none ∧ off.toNat % 4 = 0 := by decide

theorem witness_BusyReadIsDrawn :
    ∀ off ∈ boundaries, (next (pend .reset .nop) [.read off 4]).events = .read off 4 :: [] ∧
      (next (pend .reset .nop) [.read off 4]).pending = some 0 ∧ off.toNat % 4 = 0 := by decide

/-- Each boundary offset falls under exactly one clause of the busy read. -/
theorem test_clauses_do_not_overlap :
    boundaries.map (fun off => (decide (off.toNat = 0x24), decide (off.toNat = 0x28),
      decide (off.toNat = 0x20 ∨ (0x30 ≤ off.toNat ∧ off.toNat < 0x40) ∨ 0xF0 ≤ off.toNat),
      decide (off.toNat < 0x20 ∨ off.toNat = 0x2C ∨ (0x40 ≤ off.toNat ∧ off.toNat < 0xF0)))) =
    [(false, false, false, true), (false, false, false, true), (false, false, false, true),
      (false, false, false, true), (false, false, true, false), (true, false, false, false),
      (false, true, false, false), (false, false, false, true), (false, false, true, false),
      (false, false, true, false), (false, false, false, true), (false, false, false, true),
      (false, false, true, false), (false, false, true, false)] := by decide

theorem witness_HostAddressReachesOffset :
    Config.aesBase + 256 < Config.aesBase ∨ Config.aesBase + 256 ≤ Config.aesBase + 256 := .inr (Nat.le_refl _)

theorem witness_BadAccessOnlyRecordsError :
    ((1 : Nat) ≠ 4 ∨ (0x24 : BitVec 8).toNat % 4 ≠ 0) ∧ ((4 : Nat) ≠ 4 ∨ (0x22 : BitVec 8).toNat % 4 ≠ 0) ∧
      (next .reset [.read 0x24 1]).events = .read 0x24 1 :: [] ∧
      (next .reset [.write 0x22 4 2]).events = .write 0x22 4 2 :: [] := by decide

theorem witness_WriteReachesRegister :
    ∀ off ∈ boundaries, (next .reset [.write off 4 7]).events = .write off 4 7 :: [] ∧
      (next .reset [.write off 4 7]).pending = none ∧ off.toNat % 4 = 0 := by decide

theorem witness_BusyWriteDropped :
    ∀ off ∈ boundaries, (next (pend .reset .nop) [.write off 4 7]).events = .write off 4 7 :: [] ∧
      (next (pend .reset .nop) [.write off 4 7]).pending = some 0 ∧ off.toNat % 4 = 0 := by decide

theorem witness_CtrlWriteSetsIrqEn :
    (next .reset [.write 0x28 4 1]).events = .write 0x28 4 1 :: [] := rfl

theorem witness_StatusWriteClearsBits :
    (next .reset [.write 0x24 4 0xA]).events = .write 0x24 4 0xA :: [] := rfl

theorem witness_RepeatedWriteIsIdempotent :
    ∀ off ∈ boundaries.erase 0x20, off.toNat % 4 = 0 ∧ off.toNat ≠ 0x20 := by decide

/-- ERR is set and a second error arrives. -/
def failed : Machine.State :=
  next { State.reset with err := true, errcode := 5, done := true } [wr offCmd 0x9]

theorem witness_FirstErrorIsKept :
    ∃ t, failed.err = true ∧ step failed = .next t ∧ ¬ resetNext failed ∧
      ∀ v, writeNext failed 0x24 v → v.getLsbD 3 = false := by
  refine ⟨_, rfl, rfl, ?_, ?_⟩
  · rintro ⟨rest, h⟩
    cases h
  · rintro v ⟨_, rest, h⟩
    cases h

/-- DONE is set by a completion and by a rejection, and cleared by the host. -/
theorem witness_DoneChangesOnlyBy :
    (∃ t, step (pend .reset .nop) = .next t ∧ (pend .reset .nop).done = false ∧ t.done = true) ∧
    (∃ t, step (next .reset [cmd .step]) = .next t ∧ State.reset.done = false ∧ t.done = true) ∧
    (∃ t, step (next { State.reset with done := true } [ackdone]) = .next t ∧ t.done = false) :=
  ⟨⟨_, rfl, rfl, rfl⟩, ⟨_, rfl, rfl, rfl⟩, ⟨_, rfl, rfl⟩⟩

theorem witness_ResetRestoresResetValues :
    (next (pend (keyed plain1 5) .encrypt) [.reset]).events = .reset :: [] := rfl

theorem witness_EveryStateSteps : ∃ t, step (pend (keyed plain1 5) .encrypt) = .next t := ⟨_, rfl⟩

/-- KEY changes by a write to KEY0 and to KEY3, and by CLEAR. -/
theorem witness_KeyChangesOnlyBy :
    (∃ t, step (next .reset [wr 0x00 1]) = .next t ∧ t.key ≠ State.reset.key) ∧
    (∃ t, step (next .reset [wr 0x0C 1]) = .next t ∧ t.key ≠ State.reset.key) ∧
    (∃ t, step (pend (keyed plain1 0) .clear) = .next t ∧ t.key ≠ (keyed plain1 0).key) :=
  ⟨⟨_, rfl, by decide⟩, ⟨_, rfl, by decide⟩, ⟨_, rfl, by decide⟩⟩

/-- STATE changes by a write to STATE0 and to STATE3, and by SHIFTROWS. -/
theorem witness_StateChangesOnlyBy :
    (∃ t, step (next .reset [wr 0x10 1]) = .next t ∧ t.st ≠ State.reset.st) ∧
    (∃ t, step (next .reset [wr 0x1C 1]) = .next t ∧ t.st ≠ State.reset.st) ∧
    (∃ t, step (pend (keyed plain1 0) .shiftrows) = .next t ∧ t.st ≠ (keyed plain1 0).st) :=
  ⟨⟨_, rfl, by decide⟩, ⟨_, rfl, by decide⟩, ⟨_, rfl, by decide⟩⟩

theorem witness_RoundKeysChangeOnlyBy :
    (∃ t, step (pend State.reset .traceStart) = .next t ∧ t.rk ≠ State.reset.rk) ∧
    (∃ t, step (pend (keyed plain1 40) .clear) = .next t ∧ t.rk ≠ (keyed plain1 40).rk) :=
  ⟨⟨_, rfl, by decide⟩, ⟨_, rfl, by decide⟩⟩

theorem witness_KeyValidChangesOnlyBy :
    (∃ t, step (pend State.reset .expand) = .next t ∧ State.reset.keyValid = false ∧ t.keyValid = true) ∧
    (∃ t, step (next (keyed plain1 3) [wr 0x0C 1]) = .next t ∧ (keyed plain1 3).keyValid = true ∧
      t.keyValid = false) := ⟨⟨_, rfl, rfl, rfl⟩, ⟨_, rfl, rfl, rfl⟩⟩

theorem witness_PhaseChangesOnlyBy :
    (∃ t, step (pend (keyed plain1 39) .step) = .next t ∧ t.phase ≠ (keyed plain1 39).phase) ∧
    (∃ t, step (pend (keyed plain1 40) .clear) = .next t ∧ t.phase ≠ (keyed plain1 40).phase) :=
  ⟨⟨_, rfl, by decide⟩, ⟨_, rfl, by decide⟩⟩

theorem witness_PendingCommandIsFrozen :
    ∃ t, (next (pend .reset .encrypt) [wr (offState 0) 1]).pending = some 2 ∧
      transactionNext (next (pend .reset .encrypt) [wr (offState 0) 1]) ∧
      step (next (pend .reset .encrypt) [wr (offState 0) 1]) = .next t :=
  ⟨_, rfl, .inr ⟨_, _, _, _, rfl⟩, rfl⟩

/-- Two transactions before the core's turn, and none. -/
theorem witness_PendingCommandCompletes :
    ((next (pend .reset .encrypt) [rd offStatus, wr (offState 0) 1]).pending = some 2 ∧
      .reset ∉ (next (pend .reset .encrypt) [rd offStatus, wr (offState 0) 1]).events) ∧
    (next (pend .reset .nop) []).pending = some 0 ∧ .reset ∉ (next (pend .reset .nop) []).events := by
  decide

theorem witness_ReadsDoNotFeedBack : ∃ t, step (next (pend .reset .encrypt) [rd offPhase]) = .next t :=
  ⟨_, rfl⟩

theorem witness_FieldProductLaws : (0x53 : Byte) ≠ 0 ∧ gmul 0x53 0xca = 1 := by decide

theorem witness_SboxIsPermutation : sbox 0x53 = sbox 0x53 := rfl

theorem witness_SboxIsAffineInverse : (0xff : Byte) ≠ 0 ∧ 0 < 8 ∧ 7 < 8 := by decide

theorem witness_ShiftRowsAndAddRoundKeyUndo :
    (∃ s₁ s₂ s₃ s₄, exec .shiftrows (loaded key1 key1) = .next s₁ ∧ exec .shiftrows s₁ = .next s₂ ∧
      exec .shiftrows s₂ = .next s₃ ∧ exec .shiftrows s₃ = .next s₄) ∧
    ∃ s₁ s₂, (10 : BitVec 4) ≤ 10 ∧ (keyed plain1 0).keyValid = true ∧
      exec (.addrk 10) (keyed plain1 0) = .next s₁ ∧ exec (.addrk 10) s₁ = .next s₂ :=
  ⟨⟨_, _, _, _, rfl, rfl, rfl, rfl⟩, _, _, by decide, rfl, rfl, rfl⟩

theorem witness_EncryptIsInjective :
    ∃ s' t', (loaded key1 plain1).key = (keyed plain1 9).key ∧
      exec .encrypt (loaded key1 plain1) = .next s' ∧ exec .encrypt (keyed plain1 9) = .next t' ∧
      s'.st = t'.st := ⟨_, _, rfl, rfl, rfl, rfl⟩

theorem witness_TraceEqualsEncrypt : (loaded key1 plain1).pending = none := rfl

theorem witness_KnownAnswerEncryption :
    (loaded key1 plain1).key = ⟨0x00010203, 0x04050607, 0x08090a0b, 0x0c0d0e0f⟩ ∧
      (loaded key1 plain1).st = ⟨0x00112233, 0x44556677, 0x8899aabb, 0xccddeeff⟩ := by decide

end Sys2Proof.Tests
end

section
/-! PROOFS. The obligations of 00_scope.md: every state has a next state (R11), and the byte order of
words, register groups and round keys (R13, R14). -/

namespace Sys2Proof.Machine

/-- R81: the core's turn always ends: with nothing pending, with a command executed, or with a pending
word rejected. -/
theorem coreTurn_next (s : State) : ∃ t, coreTurn s = .next t := by
  rcases coreTurn_cases s with ⟨_, h⟩ | ⟨_, i, _, _, h⟩ | ⟨_, _, _, _, h⟩
  · exact ⟨_, h⟩
  · rw [h]
    exact exec_next i s
  · exact ⟨_, h⟩

/-- R59: every happening ends; only the core's turn could have done otherwise. -/
theorem happen_next (e : Event) (s : State) : ∃ t, happen e s = .next t := by
  cases e with
  | complete => exact coreTurn_next s
  | read | write | reset => exact ⟨_, rfl⟩

/-- Settles O41: a step is a turn of the core or one listed happening, and both have a next state. -/
theorem everyStateSteps : Obligations.EveryStateSteps := by
  intro s
  cases h : s.events with
  | nil =>
    rw [step_nil h]
    exact coreTurn_next s
  | cons e rest =>
    rw [step_cons h]
    exact happen_next e { s with events := rest }

/-- R13: the four bytes of a word by their bit positions, `wbyte` written out. -/
theorem extractLsb'_word (b0 b1 b2 b3 : Byte) :
    (word b0 b1 b2 b3).extractLsb' 24 8 = b0 ∧ (word b0 b1 b2 b3).extractLsb' 16 8 = b1 ∧
      (word b0 b1 b2 b3).extractLsb' 8 8 = b2 ∧ (word b0 b1 b2 b3).extractLsb' 0 8 = b3 :=
  ⟨wbyte_word_zero .., wbyte_word_one .., wbyte_word_two .., wbyte_word_three ..⟩

/-- R23: register `j` of a group is the word of bytes `4j` to `4j + 3`. -/
theorem reg_eq_word_bytes (b : Block) (j : Fin 4) :
    b.reg j = word (b.byte ⟨4 * j.val, by omega⟩) (b.byte ⟨4 * j.val + 1, by omega⟩)
      (b.byte ⟨4 * j.val + 2, by omega⟩) (b.byte ⟨4 * j.val + 3, by omega⟩) := by
  match j with
  | 0 | 1 | 2 | 3 => exact (word_wbytes _).symm

/-- Settles O24: byte order in words, groups and round keys; a cell is byte `4c + r` by its
definition. -/
theorem registersHoldBytesInOrder : Obligations.RegistersHoldBytesInOrder := by
  refine ⟨extractLsb'_word, reg_eq_word_bytes, fun _ _ _ => rfl, fun rk n j => ?_, ?_⟩
  · exact (roundKey_byte rk n j).symm
  · decide

end Sys2Proof.Machine
end

section
/-! PROOFS. What can change the registers of 10_state.md: everything a command can do to the state, the
register writes that reach the registers commands compute with, and what one step does to them. -/

namespace Sys2Proof.Machine

/-! ### Commands -/

/-- R81: everything the meaning of a command can answer, one constructor a case.  ADDRK and STEP are
turned away where they meet one of R73's checks again (assumption log 7). -/
inductive ExecEffect (s : State) : Instr → State → Prop where
  | nop : ExecEffect s .nop (finish s)
  | addrkTurnedAway (n : BitVec 4) (e : ErrorCode) : ExecEffect s (.addrk n) (reject e s)
  | stepTurnedAway (e : ErrorCode) : ExecEffect s .step (reject e s)
  | subbytes : ExecEffect s .subbytes (finish { s with st := subBytes s.st })
  | shiftrows : ExecEffect s .shiftrows (finish { s with st := shiftRows s.st })
  | mixcolumns : ExecEffect s .mixcolumns (finish { s with st := mixColumns s.st })
  | addrk (n : BitVec 4) (r : Fin 11) :
      ExecEffect s (.addrk n) (finish { s with st := addRoundKey s.st (roundKey s.rk r) })
  | step (p : Fin 41) : ExecEffect s .step (finish { s with st := transform s.rk p s.st, phase := p })
  | expand : ExecEffect s .expand (finish (loadSchedule s))
  | encrypt : ExecEffect s .encrypt
      (finish { loadSchedule s with st := cipher s.st (Machine.expand s.key), phase := 40 })
  | traceStart : ExecEffect s .traceStart (finish { loadSchedule s with phase := 0 })
  | clear : ExecEffect s .clear (finish { s with
      key := .zero, st := .zero, rk := Vector.replicate 44 0, keyValid := false, phase := 0 })

/-- R81: `exec` answers in no other way. -/
theorem exec_effect {i : Instr} {s t : State} (h : exec i s = .next t) : ExecEffect s i t := by
  cases i with
  | addrk n =>
    rcases execAddrk_cases n s with ⟨e, hx⟩ | ⟨r, _, _, hx⟩ <;>
      obtain rfl : _ = t := Host.Outcome.next.inj (hx.symm.trans h)
    · exact .addrkTurnedAway n e
    · exact .addrk n r
  | step =>
    rcases execStep_cases s with ⟨e, hx⟩ | ⟨p, _, _, hx⟩ <;>
      obtain rfl : _ = t := Host.Outcome.next.inj (hx.symm.trans h)
    · exact .stepTurnedAway e
    · exact .step p
  | nop => cases h; exact .nop
  | expand => cases h; exact .expand
  | encrypt => cases h; exact .encrypt
  | subbytes => cases h; exact .subbytes
  | shiftrows => cases h; exact .shiftrows
  | mixcolumns => cases h; exact .mixcolumns
  | traceStart => cases h; exact .traceStart
  | clear => cases h; exact .clear

/-- R25: CLEAR is the one command that writes KEY. -/
theorem exec_key {i : Instr} {s t : State} (h : exec i s = .next t) :
    t.key = s.key ∨ i = .clear := by
  cases exec_effect h with
  | clear => exact .inr rfl
  | _ => exact .inl (by simp)

/-- R24: the commands that write STATE. -/
theorem exec_st {i : Instr} {s t : State} (h : exec i s = .next t) :
    t.st = s.st ∨ (∃ n, i = .addrk n) ∨ i = .subbytes ∨ i = .shiftrows ∨ i = .mixcolumns ∨
      i = .encrypt ∨ i = .step ∨ i = .clear := by
  cases exec_effect h with
  | nop | addrkTurnedAway | stepTurnedAway | expand | traceStart => exact .inl (by simp)
  | _ => exact .inr (by simp)

/-- R26, R27, R126: a command leaves RK and KEY_VALID, or loads the whole expansion of KEY and sets
KEY_VALID, or is CLEAR. -/
theorem exec_schedule {i : Instr} {s t : State} (h : exec i s = .next t) :
    (t.rk = s.rk ∧ t.keyValid = s.keyValid) ∨
    ((i = .expand ∨ i = .encrypt ∨ i = .traceStart) ∧ t.rk = expand s.key ∧ t.keyValid = true) ∨
    (i = .clear ∧ t.keyValid = false) := by
  cases exec_effect h with
  | expand | encrypt | traceStart => exact .inr (.inl (by simp))
  | clear => exact .inr (.inr ⟨rfl, rfl⟩)
  | _ => exact .inl (by simp)

/-- R30: the commands that write PHASE. -/
theorem exec_phase {i : Instr} {s t : State} (h : exec i s = .next t) :
    t.phase = s.phase ∨ i = .traceStart ∨ i = .step ∨ i = .encrypt ∨ i = .clear := by
  cases exec_effect h with
  | traceStart | step | encrypt | clear => exact .inr (by simp)
  | _ => exact .inl (by simp)

/-! ### Register writes -/

/-- R21: the offsets of the KEY registers. -/
theorem off_of_registerAt_key {off : BitVec 8} {j : Fin 4} (h : registerAt off = .key j) :
    off.toNat < 0x10 := by
  unfold registerAt at h
  split_ifs at h
  assumption

/-- R21: the offsets of the STATE registers. -/
theorem off_of_registerAt_state {off : BitVec 8} {j : Fin 4} (h : registerAt off = .state j) :
    0x10 ≤ off.toNat ∧ off.toNat < 0x20 := by
  unfold registerAt at h
  split_ifs at h
  omega

/-- R21: the one aligned offset of CMD. -/
theorem off_of_registerAt_cmd {off : BitVec 8} (ha : off.toNat % 4 = 0) (h : registerAt off = .cmd) :
    off = 0x20 := by
  refine BitVec.eq_of_toNat_eq (?_ : off.toNat = 0x20)
  unfold registerAt at h
  split_ifs at h
  omega

/-- R21: the one aligned offset of STATUS. -/
theorem off_of_registerAt_status {off : BitVec 8} (ha : off.toNat % 4 = 0)
    (h : registerAt off = .status) : off = 0x24 := by
  refine BitVec.eq_of_toNat_eq (?_ : off.toNat = 0x24)
  unfold registerAt at h
  split_ifs at h
  omega

/-- The registers a command computes with, KEY, STATE, RK, KEY_VALID and PHASE, are the same in both
states. -/
structure DatapathKept (s t : State) : Prop where
  key : t.key = s.key
  st : t.st = s.st
  rk : t.rk = s.rk
  keyValid : t.keyValid = s.keyValid
  phase : t.phase = s.phase

/-- R202: recording an error writes ERR and ERRCODE alone. -/
theorem raiseError_datapath (e : ErrorCode) (s : State) : DatapathKept s (raiseError e s) := by
  constructor <;> simp

/-- R203: a rejection leaves the datapath. -/
theorem reject_datapath (e : ErrorCode) (s : State) : DatapathKept s (reject e s) := by
  constructor <;> simp

/-- R54, R57: a read leaves the datapath. -/
theorem busRead_datapath (off : BitVec 8) (n : Nat) (s : State) :
    DatapathKept s (busRead off n s) := by
  rcases busRead_cases off n s with ⟨_, _, h⟩ | ⟨_, _, h⟩ | ⟨_, h⟩ <;> rw [h] <;> constructor <;> simp

/-- R80: a CMD write leaves the datapath, whether it is accepted or not. -/
theorem issue_datapath (c : Word) (s : State) : DatapathKept s (issue c s) := by
  rcases issue_cases c s with ⟨_, h⟩ | ⟨_, _, h⟩ | ⟨_, e, _, h⟩ <;> rw [h]
  · exact raiseError_datapath .busy s
  · exact ⟨rfl, rfl, rfl, rfl, rfl⟩
  · exact reject_datapath e s

/-- R25, R55, R58: of the register writes, only an accepted KEY or STATE write reaches the datapath. -/
theorem write_datapath (r : Register) (v : Word) (s : State) :
    DatapathKept s (r.write v s) ∨
    (∃ j, r = .key j ∧ s.pending = none ∧
      r.write v s = { s with key := s.key.setReg j v, keyValid := false }) ∨
    (∃ j, r = .state j ∧ s.pending = none ∧ r.write v s = { s with st := s.st.setReg j v }) := by
  cases r with
  | key j =>
    rcases writeKey_cases j v s with ⟨_, h⟩ | ⟨hp, h⟩
    · exact .inl (by rw [Register.write, h]; exact raiseError_datapath .busy s)
    · exact .inr (.inl ⟨j, rfl, hp, h⟩)
  | state j =>
    rcases writeState_cases j v s with ⟨_, h⟩ | ⟨hp, h⟩
    · exact .inl (by rw [Register.write, h]; exact raiseError_datapath .busy s)
    · exact .inr (.inr ⟨j, rfl, hp, h⟩)
  | cmd => exact .inl (issue_datapath v s)
  | status | ctrl | phase | rk | reserved => exact .inl ⟨rfl, rfl, rfl, rfl, rfl⟩

/-- R28, R80, R193: of the register writes, only a rejected CMD write sets DONE and only a STATUS write
with bit 1 set clears it. -/
theorem write_done (r : Register) (v : Word) (s : State) :
    (r.write v s).done = s.done ∨
    ((r.write v s).done = true ∧ r = .cmd ∧ s.pending = none ∧
      ∃ e, decodeCommand v s.keyValid s.phase = .error e) ∨
    ((r.write v s).done = false ∧ r = .status ∧ v.getLsbD 1 = true) := by
  cases r with
  | key j =>
    rcases writeKey_cases j v s with ⟨_, h⟩ | ⟨_, h⟩ <;> exact .inl (by simp [Register.write, h])
  | state j =>
    rcases writeState_cases j v s with ⟨_, h⟩ | ⟨_, h⟩ <;> exact .inl (by simp [Register.write, h])
  | cmd =>
    rcases issue_cases v s with ⟨_, h⟩ | ⟨_, _, h⟩ | ⟨hp, e, hd, h⟩
    · exact .inl (by simp [Register.write, h])
    · exact .inl (by simp [Register.write, h])
    · exact .inr (.inl ⟨by simp [Register.write, h], rfl, hp, e, hd⟩)
  | status =>
    cases hv : v.getLsbD 1 with
    | false => exact .inl (by rw [Register.write, writeStatus_done, hv]; simp)
    | true => exact .inr (.inr ⟨by rw [Register.write, writeStatus_done, hv]; simp, rfl, rfl⟩)
  | ctrl | phase | rk | reserved => exact .inl rfl

/-! ### The step -/

/-- R24 to R27, R30: what one step does to the datapath.  It is left alone, or a command executes, or a
reset falls, or an accepted KEY or STATE write falls. -/
theorem step_datapath {s t : State} (h : step s = .next t) :
    DatapathKept s t ∨
    (∃ i, completes s i ∧ exec i { s with events := s.events.tail } = .next t) ∨
    (resetNext s ∧ t = hardwareReset { s with events := s.events.tail }) ∨
    (∃ off v j es, writeNext s off v ∧ off.toNat < 0x10 ∧ s.pending = none ∧
      t = { s with events := es, key := s.key.setReg j v, keyValid := false }) ∨
    (∃ off v j es, writeNext s off v ∧ (0x10 ≤ off.toNat ∧ off.toNat < 0x20) ∧ s.pending = none ∧
      t = { s with events := es, st := s.st.setReg j v }) := by
  have ofEvents {es : List Event} {u : State} (k : DatapathKept { s with events := es } u) :
      DatapathKept s u := ⟨k.key, k.st, k.rk, k.keyValid, k.phase⟩
  rcases step_cases h with ⟨_, _, rfl⟩ | hx | ⟨_, e, _, _, _, rfl⟩ | hr | ⟨off, n, _, _, rfl⟩ |
    ⟨off, v, rest, hw, _, rfl⟩ | ⟨_, _, _, _, _, _, rfl⟩
  · exact .inl ⟨rfl, rfl, rfl, rfl, rfl⟩
  · exact .inr (.inl hx)
  · exact .inl (ofEvents (reject_datapath e _))
  · exact .inr (.inr (.inl hr))
  · exact .inl (ofEvents (busRead_datapath off n _))
  · rcases write_datapath (registerAt off) v { s with events := rest } with
      hk | ⟨j, hreg, hp, hk⟩ | ⟨j, hreg, hp, hk⟩
    · exact .inl (ofEvents hk)
    · exact .inr (.inr (.inr (.inl ⟨off, v, j, rest, hw, off_of_registerAt_key hreg, hp, hk⟩)))
    · exact .inr (.inr (.inr (.inr ⟨off, v, j, rest, hw, off_of_registerAt_state hreg, hp, hk⟩)))
  · exact .inl (ofEvents (raiseError_datapath .busAccess _))

end Sys2Proof.Machine
end

section
/-! PROOFS. The invariants of 10_state.md R27 and R37, operation by operation, and the obligations about
them. -/

namespace Sys2Proof.Machine

/-- R201: the highest error number is 6. -/
theorem code_le_six (e : ErrorCode) : e.code ≤ 6 := by
  cases e <;> decide

/-- R37: the invariants do not look at the interrupt enable, at DONE or at the bus's own fields. -/
theorem inv_congr {s : State} (h : StateInv s) (d ie : Bool) (es : List Event) (r : Option Reply)
    (n : Nat) : StateInv { s with done := d, irqEn := ie, events := es, reply := r, draws := n } :=
  ⟨h.errcode_zero, h.errcode_le, h.pending_accepted, h.schedule_valid⟩

/-- R81: after a completion nothing is pending, so that part of the invariant asks nothing. -/
theorem finish_inv {s : State} (hz : s.err = false → s.errcode = 0) (hle : s.errcode ≤ 6)
    (hrk : s.keyValid = true → s.rk = expand s.key) : StateInv (finish s) :=
  ⟨hz, hle, nofun, hrk⟩

/-- R202: recording an error keeps the invariants. -/
theorem raiseError_inv {s : State} (h : StateInv s) (e : ErrorCode) : StateInv (raiseError e s) where
  errcode_zero := by simp
  errcode_le := by
    rw [raiseError_errcode]
    split
    · exact h.errcode_le
    · exact code_le_six e
  pending_accepted := by simpa using h.pending_accepted
  schedule_valid := by simpa using h.schedule_valid

/-- R203: a rejection keeps the invariants. -/
theorem reject_inv {s : State} (h : StateInv s) (e : ErrorCode) : StateInv (reject e s) :=
  have hr := raiseError_inv h e
  finish_inv hr.errcode_zero hr.errcode_le hr.schedule_valid

/-- R54, R57: a read keeps the invariants. -/
theorem busRead_inv {s : State} (h : StateInv s) (off : BitVec 8) (n : Nat) :
    StateInv (busRead off n s) := by
  rcases busRead_cases off n s with ⟨_, _, hb⟩ | ⟨_, _, hb⟩ | ⟨_, hb⟩ <;> rw [hb]
  · exact inv_congr h ..
  · exact inv_congr h ..
  · exact inv_congr (raiseError_inv h .busAccess) ..

/-- R80: a CMD write keeps the invariants; the word it makes pending is one decoding accepted. -/
theorem issue_inv {s : State} (h : StateInv s) (c : Word) : StateInv (issue c s) := by
  rcases issue_cases c s with ⟨_, hi⟩ | ⟨_, hd, hi⟩ | ⟨_, e, _, hi⟩ <;> rw [hi]
  · exact raiseError_inv h .busy
  · refine ⟨h.errcode_zero, h.errcode_le, ?_, h.schedule_valid⟩
    rintro _ ⟨⟩
    exact hd
  · exact reject_inv h e

/-- R25: a KEY write keeps the invariants; it changes KEY only with nothing pending, and then clears
KEY_VALID. -/
theorem writeKey_inv {s : State} (h : StateInv s) (j : Fin 4) (v : Word) :
    StateInv (writeKey j v s) := by
  rcases writeKey_cases j v s with ⟨_, hk⟩ | ⟨hp, hk⟩ <;> rw [hk]
  · exact raiseError_inv h .busy
  · exact ⟨h.errcode_zero, h.errcode_le, by simp [hp], nofun⟩

/-- R24: a STATE write keeps the invariants, which do not look at STATE. -/
theorem writeState_inv {s : State} (h : StateInv s) (j : Fin 4) (v : Word) :
    StateInv (writeState j v s) := by
  rcases writeState_cases j v s with ⟨_, hk⟩ | ⟨_, hk⟩ <;> rw [hk]
  · exact raiseError_inv h .busy
  · exact ⟨h.errcode_zero, h.errcode_le, h.pending_accepted, h.schedule_valid⟩

/-- R193: a STATUS write keeps the invariants, since bit 3 clears ERR and ERRCODE together. -/
theorem writeStatus_inv {s : State} (h : StateInv s) (v : Word) : StateInv (writeStatus v s) := by
  refine ⟨?_, ?_, h.pending_accepted, h.schedule_valid⟩ <;>
    rw [writeStatus_errcode] <;> cases hv : v.getLsbD 3
  · simpa [-BitVec.getLsbD_eq_getElem, hv] using h.errcode_zero
  · exact fun _ => rfl
  · exact h.errcode_le
  · exact (by decide : (0 : BitVec 4) ≤ 6)

/-- R55: every register write keeps the invariants. -/
theorem write_inv {s : State} (h : StateInv s) (r : Register) (v : Word) : StateInv (r.write v s) := by
  cases r with
  | key j => exact writeKey_inv h j v
  | state j => exact writeState_inv h j v
  | cmd => exact issue_inv h v
  | status => exact writeStatus_inv h v
  | ctrl => exact inv_congr h ..
  | phase | rk | reserved => exact h

/-- R81: every command keeps the invariants.  The three that set KEY_VALID load the expansion of KEY with
it, and CLEAR clears it. -/
theorem exec_inv {i : Instr} {s t : State} (h : StateInv s) (hx : exec i s = .next t) :
    StateInv t := by
  cases exec_effect hx with
  | addrkTurnedAway _ e | stepTurnedAway e => exact reject_inv h e
  | expand | encrypt | traceStart => exact finish_inv h.errcode_zero h.errcode_le fun _ => rfl
  | clear => exact finish_inv h.errcode_zero h.errcode_le nofun
  | _ => exact finish_inv h.errcode_zero h.errcode_le h.schedule_valid

/-- Settles O39: with ERR, PENDING and KEY_VALID clear, nothing is asked of the rest. -/
theorem resetMeetsInvariants : Obligations.ResetMeetsInvariants :=
  ⟨fun _ => rfl, by decide, nofun, nofun⟩

/-- Settles O40: each thing a step can do keeps the invariants. -/
theorem stepKeepsInvariants : Obligations.StepKeepsInvariants := by
  intro s t h hs
  have hev (es : List Event) : StateInv { s with events := es } := inv_congr h ..
  rcases step_cases hs with ⟨_, _, rfl⟩ | ⟨_, _, hx⟩ | ⟨_, e, _, _, _, rfl⟩ | ⟨_, rfl⟩ |
    ⟨off, n, _, _, rfl⟩ | ⟨off, v, _, _, _, rfl⟩ | ⟨_, _, _, _, _, _, rfl⟩
  · exact hev _
  · exact exec_inv (hev _) hx
  · exact reject_inv (hev _) e
  · exact inv_congr resetMeetsInvariants ..
  · exact busRead_inv (hev _) off n
  · exact write_inv (hev _) (registerAt off) v
  · exact raiseError_inv (hev _) .busAccess

end Sys2Proof.Machine
end

section
/-! PROOFS. The obligations of 10_state.md about what changes each piece of state: each reads off
`step_datapath` and the lemma that says which commands write the register. -/

namespace Sys2Proof.Machine

/-- Settles O42: of the commands only CLEAR writes KEY (`exec_key`). -/
theorem keyChangesOnlyBy : Obligations.KeyChangesOnlyBy := by
  intro s t h hne
  rcases step_datapath h with hk | ⟨i, hc, hx⟩ | ⟨hr, _⟩ | ⟨off, v, _, _, hw, ho, hp, _⟩ |
    ⟨_, _, _, _, _, _, _, rfl⟩
  · exact absurd hk.key hne
  · rcases exec_key hx with hk | rfl
    · exact absurd hk hne
    · exact .inr (.inl hc)
  · exact .inr (.inr hr)
  · exact .inl ⟨off, v, hw, ho, hp⟩
  · exact absurd rfl hne

/-- Settles O43: the commands that write STATE are those of `exec_st`. -/
theorem stateChangesOnlyBy : Obligations.StateChangesOnlyBy := by
  intro s t h hne
  rcases step_datapath h with hk | ⟨i, hc, hx⟩ | ⟨hr, _⟩ | ⟨_, _, _, _, _, _, _, rfl⟩ |
    ⟨off, v, _, _, hw, ⟨hl, hu⟩, hp, _⟩
  · exact absurd hk.st hne
  · rcases (exec_st hx).resolve_left hne with ⟨n, rfl⟩ | hi
    · exact .inr (.inr (.inr (.inr (.inl ⟨n, hc⟩))))
    · rcases hi with rfl | rfl | rfl | rfl | rfl | rfl <;> simp only [hc, true_or, or_true]
  · simp only [hr, or_true]
  · exact absurd rfl hne
  · exact .inl ⟨off, v, hw, hl, hu, hp⟩

/-- Settles O44: a command that writes RK loads all of it or is CLEAR (`exec_schedule`). -/
theorem roundKeysChangeOnlyBy : Obligations.RoundKeysChangeOnlyBy := by
  intro s t h hne
  rcases step_datapath h with hk | ⟨i, hc, hx⟩ | ⟨hr, _⟩ | ⟨_, _, _, _, _, _, _, rfl⟩ |
    ⟨_, _, _, _, _, _, _, rfl⟩
  · exact absurd hk.rk hne
  · rcases exec_schedule hx with ⟨hk, _⟩ | ⟨hi, hrk, _⟩ | ⟨rfl, _⟩
    · exact absurd hk hne
    · refine .inl ⟨?_, hrk⟩
      rcases hi with rfl | rfl | rfl <;> simp only [hc, true_or, or_true]
    · exact .inr (.inl hc)
  · exact .inr (.inr hr)
  · exact absurd rfl hne
  · exact absurd rfl hne

/-- Settles O45: KEY_VALID follows RK in the commands (`exec_schedule`), and a KEY write and a reset
clear it. -/
theorem keyValidChangesOnlyBy : Obligations.KeyValidChangesOnlyBy := by
  intro s t h
  rcases step_datapath h with hk | ⟨i, hc, hx⟩ | ⟨hr, rfl⟩ | ⟨off, v, _, _, hw, ho, hp, rfl⟩ |
    ⟨_, _, _, _, _, _, _, rfl⟩
  · rw [hk.keyValid]
    simp_all
  · rcases exec_schedule hx with ⟨_, hk⟩ | ⟨hi, _, hk⟩ | ⟨rfl, hk⟩
    · rw [hk]
      simp_all
    · refine ⟨fun _ _ => ?_, by simp [hk]⟩
      rcases hi with rfl | rfl | rfl <;> simp only [hc, true_or, or_true]
    · exact ⟨by simp [hk], fun _ _ => .inr (.inl hc)⟩
  · exact ⟨nofun, fun _ _ => .inr (.inr hr)⟩
  · exact ⟨nofun, fun _ _ => .inl ⟨off, v, hw, ho, hp⟩⟩
  · simp_all

/-- Settles O46: no register write reaches PHASE, and its commands are those of `exec_phase`. -/
theorem phaseChangesOnlyBy : Obligations.PhaseChangesOnlyBy := by
  intro s t h hne
  rcases step_datapath h with hk | ⟨i, hc, hx⟩ | ⟨hr, _⟩ | ⟨_, _, _, _, _, _, _, rfl⟩ |
    ⟨_, _, _, _, _, _, _, rfl⟩
  · exact absurd hk.phase hne
  · have hi := (exec_phase hx).resolve_left hne
    rcases hi with rfl | rfl | rfl | rfl <;> simp only [hc, true_or, or_true]
  · simp only [hr, or_true]
  · exact absurd rfl hne
  · exact absurd rfl hne

/-- R28: what one step does to DONE. -/
theorem step_done {s t : State} (h : step s = .next t) :
    t.done = s.done ∨
    (t.done = true ∧ coreNext s ∧ s.pending.isSome = true) ∨
    (t.done = true ∧ ∃ c e, writeNext s 0x20 c ∧ s.pending = none ∧
      decodeCommand c s.keyValid s.phase = .error e) ∨
    (t.done = false ∧ resetNext s) ∨
    (t.done = false ∧ ∃ v, writeNext s 0x24 v ∧ v.getLsbD 1 = true) := by
  rcases step_cases h with ⟨_, _, rfl⟩ | ⟨i, ⟨hn, c, hp, _⟩, hx⟩ | ⟨c, e, hn, hp, _, rfl⟩ |
    ⟨hr, rfl⟩ | ⟨off, n, rest, _, rfl⟩ | ⟨off, v, rest, hw, _, rfl⟩ | ⟨_, _, _, _, _, _, rfl⟩
  · exact .inl rfl
  · obtain ⟨_, hd, _⟩ := exec_frame hx
    exact .inr (.inl ⟨hd, hn, by simp [hp]⟩)
  · exact .inr (.inl ⟨rfl, hn, by simp [hp]⟩)
  · exact .inr (.inr (.inr (.inl ⟨rfl, hr⟩)))
  · rcases busRead_cases off n { s with events := rest } with ⟨_, _, hb⟩ | ⟨_, _, hb⟩ | ⟨_, hb⟩ <;>
      exact .inl (by simp [hb])
  · rcases write_done (registerAt off) v { s with events := rest } with
      hd | ⟨hd, hreg, hp, e, he⟩ | ⟨hd, hreg, hv⟩
    · exact .inl hd
    · obtain rfl := off_of_registerAt_cmd hw.1 hreg
      exact .inr (.inr (.inl ⟨hd, v, e, hw, hp, he⟩))
    · obtain rfl := off_of_registerAt_status hw.1 hreg
      exact .inr (.inr (.inr (.inr ⟨hd, v, hw, hv⟩)))
  · exact .inl (by simp)

/-- Settles O36: each case of `step_done` that writes DONE says what it writes. -/
theorem doneChangesOnlyBy : Obligations.DoneChangesOnlyBy := by
  intro s t h
  rcases step_done h with hd | ⟨hd, hc⟩ | ⟨hd, hw⟩ | ⟨hd, hr⟩ | ⟨hd, hw⟩ <;> rw [hd]
  · simp_all
  · exact ⟨fun _ _ => .inl hc, nofun⟩
  · exact ⟨fun _ _ => .inr hw, nofun⟩
  · exact ⟨nofun, fun _ _ => .inl hr⟩
  · exact ⟨nofun, fun _ _ => .inr hw⟩

end Sys2Proof.Machine
end

section
/-! PROOFS. The obligations of 10_state.md about how STATUS, CTRL and PHASE read, and about the values
after reset. -/

namespace Sys2Proof.Machine

/-- Settles O31: each bit is looked up in R28's concatenation, the two fields of several bits bit by
bit. -/
theorem statusFieldsReadBack : Obligations.StatusFieldsReadBack := by
  intro s
  refine ⟨?_, ?_, ?_, ?_, BitVec.eq_of_getLsbD_eq fun i hi => ?_, ?_, ?_,
      BitVec.eq_of_getLsbD_eq fun i hi => ?_⟩ <;>
    simp only [statusValue, BitVec.getLsbD_extractLsb', BitVec.getLsbD_append]
  · simp [busy]
  · simp
  · simp
  · simp
  · simp [hi]
  · simp [irq]
  · simp
  · simp (disch := omega) [if_neg]

/-- Settles O32: bit 0 is IRQ_EN and the other bits fall in the zero part of R29's concatenation. -/
theorem ctrlFieldsReadBack : Obligations.CtrlFieldsReadBack := by
  intro s
  refine ⟨?_, BitVec.eq_of_getLsbD_eq fun i _ => ?_⟩ <;>
    simp only [ctrlValue, BitVec.getLsbD_extractLsb', BitVec.getLsbD_append]
  · simp
  · simp (disch := omega)

/-- Settles O33: the table, evaluated. -/
theorem phaseRegisterTable : Obligations.PhaseRegisterTable := by
  unfold Obligations.PhaseRegisterTable
  decide

/-- R36: the zero key does not expand to zero words. -/
theorem replicate_zero_ne_expand_zero : Vector.replicate 44 0 ≠ expand Block.zero := by
  decide

/-- Settles O38: the values are those of `State.reset`, and RK is not the schedule of KEY. -/
theorem resetValues : Obligations.ResetValues :=
  ⟨rfl, rfl, rfl, rfl, rfl, rfl, rfl, rfl, rfl, rfl, by decide, by decide, by decide, rfl,
    replicate_zero_ne_expand_zero⟩

end Sys2Proof.Machine
end

section
/-! PROOFS. The obligations of 20_memory.md about reads: which register an offset names, what a read of
it returns with no command pending and while one is pending, and what a bad access does. -/

namespace Sys2Proof.Machine

/-! ### From offset to register (R21, R51) -/

theorem registerAt_key {off : BitVec 8} {j : Fin 4} (h : off.toNat = 4 * j.val) :
    registerAt off = .key j := by
  simp [registerAt, h, show 4 * j.val < 16 by omega]

theorem registerAt_state {off : BitVec 8} {j : Fin 4} (h : off.toNat = 0x10 + 4 * j.val) :
    registerAt off = .state j := by
  simp [registerAt, h, show 16 + 4 * j.val < 32 by omega]

theorem registerAt_cmd {off : BitVec 8} (h : off.toNat = 0x20) : registerAt off = .cmd := by
  simp [registerAt, h]

theorem registerAt_status {off : BitVec 8} (h : off.toNat = 0x24) : registerAt off = .status := by
  simp [registerAt, h]

theorem registerAt_ctrl {off : BitVec 8} (h : off.toNat = 0x28) : registerAt off = .ctrl := by
  simp [registerAt, h]

theorem registerAt_phase {off : BitVec 8} (h : off.toNat = 0x2C) : registerAt off = .phase := by
  simp [registerAt, h]

theorem registerAt_rk {off : BitVec 8} {i : Fin 44} (h : off.toNat = 0x40 + 4 * i.val) :
    registerAt off = .rk i := by
  unfold registerAt
  split_ifs
  iterate 7 · omega
  · simp [h]
  · omega

theorem registerAt_reserved {off : BitVec 8}
    (h : (0x30 ≤ off.toNat ∧ off.toNat < 0x40) ∨ 0xF0 ≤ off.toNat) :
    registerAt off = .reserved := by
  unfold registerAt
  split_ifs
  iterate 6 · omega
  · rfl
  · omega
  · rfl

/-- R57: the aligned offsets whose read is a draw while a command is pending. -/
theorem registerAt_drawnWhenBusy {off : BitVec 8} (ha : off.toNat % 4 = 0)
    (h : off.toNat < 0x20 ∨ off.toNat = 0x2C ∨ (0x40 ≤ off.toNat ∧ off.toNat < 0xF0)) :
    (registerAt off).drawnWhenBusy = true := by
  rcases registerAt_cases off ha with ⟨_, _, hr⟩ | ⟨_, _, hr⟩ | ⟨_, hr⟩ | ⟨_, hr⟩ | ⟨_, hr⟩ |
    ⟨_, hr⟩ | ⟨_, _, hr⟩ | ⟨_, hr⟩ <;> simp [hr, Register.drawnWhenBusy] <;> omega

/-! ### Reads -/

/-- R54: an admitted read of a register that is not drawn returns its value. -/
theorem step_read_value {s : State} {off : BitVec 8} {rest : List Event} {r : Register}
    (h : s.events = .read off 4 :: rest) (ha : off.toNat % 4 = 0) (hr : registerAt off = r)
    (hd : s.pending = none ∨ r.drawnWhenBusy = false) :
    step s = .next { s with events := rest, reply := some ⟨4, r.value s⟩ } := by
  subst hr
  rw [step_read h ha, if_neg]
  rcases hd with hd | hd <;> simp [hd]

/-- Settles O22: the value is that of the register the offset names. -/
theorem readReturnsRegister : Obligations.ReadReturnsRegister := by
  intro s rest off h hp ha
  refine ⟨_, step_read_value h ha rfl (.inl hp), fun j hj => ?_, fun j hj => ?_, fun ho => ?_,
    fun ho => ?_, fun ho => ?_, fun ho => ?_, fun i hi => ?_, fun ho => ?_⟩
  · rw [registerAt_key hj]; rfl
  · rw [registerAt_state hj]; rfl
  · rw [registerAt_cmd ho]; rfl
  · rw [registerAt_status ho]; rfl
  · rw [registerAt_ctrl ho]; rfl
  · rw [registerAt_phase ho]; rfl
  · rw [registerAt_rk hi]; rfl
  · rw [registerAt_reserved ho]; rfl

/-- Settles O25: the registers read exactly are those that are not drawn. -/
theorem busyReadIsDrawn : Obligations.BusyReadIsDrawn := by
  intro s rest off c h hp ha
  refine ⟨fun ho => ?_, fun ho => ?_, fun ho => ?_, fun ho => ?_⟩
  · exact step_read_value h ha (registerAt_status ho) (.inr rfl)
  · exact step_read_value h ha (registerAt_ctrl ho) (.inr rfl)
  · rcases ho with ho | ho
    · exact step_read_value h ha (registerAt_cmd ho) (.inr rfl)
    · exact step_read_value h ha (registerAt_reserved ho) (.inr rfl)
  · rw [step_read h ha, if_pos (by simp [hp, registerAt_drawnWhenBusy ha ho])]

/-- R53: an access that is not of 4 bytes, or not at a multiple of 4, is not admitted. -/
theorem admitted_eq_false {off : BitVec 8} {n : Nat} (h : n ≠ 4 ∨ off.toNat % 4 ≠ 0) :
    admitted off n = false := by
  rw [← Bool.not_eq_true, admitted_iff]
  exact not_and_or.2 h

/-- Settles O26: a bad access raises BUS_ACCESS and does nothing else (`raiseError_eq`). -/
theorem badAccessOnlyRecordsError : Obligations.BadAccessOnlyRecordsError := by
  intro s rest off n hbad
  have hb := admitted_eq_false hbad
  refine ⟨fun h => ?_, fun v h => ?_⟩
  · rw [step_badRead h hb, raiseError_eq]; rfl
  · rw [step_badWrite h hb, raiseError_eq]; rfl

/-- Settles O23: the addresses outside the window fail the bounds check of `windowOffset`. -/
theorem hostAddressReachesOffset : Obligations.HostAddressReachesOffset := by
  refine ⟨windowOffset_hostAddress, fun a ha => if_neg ?_⟩
  omega

end Sys2Proof.Machine
end

section
/-! PROOFS. The obligations of 20_memory.md about writes: what a write does with no command pending and
while one is pending, that repeating it changes nothing, and that no transaction reaches a pending
command. -/

namespace Sys2Proof.Machine

/-! ### Register writes -/

/-- R55: the read-only and reserved places, from PHASE up, ignore a write. -/
theorem write_readOnly {off : BitVec 8} (ha : off.toNat % 4 = 0) (h : 0x2C ≤ off.toNat) (v : Word)
    (s : State) : (registerAt off).write v s = s := by
  rcases registerAt_cases off ha with ⟨_, _, _⟩ | ⟨_, _, _⟩ | ⟨_, _⟩ | ⟨_, _⟩ | ⟨_, _⟩ | ⟨_, hr⟩ |
    ⟨_, _, hr⟩ | ⟨_, hr⟩
  iterate 5 · omega
  all_goals rw [hr]; rfl

/-- R58: while a command is pending, a write to KEY, STATE or CMD only raises BUSY. -/
theorem write_dropped {off : BitVec 8} (ha : off.toNat % 4 = 0) (h : off.toNat < 0x24) (v : Word)
    (s : State) {c : Word} (hp : s.pending = some c) :
    (registerAt off).write v s = raiseError .busy s := by
  rcases registerAt_cases off ha with ⟨_, _, hr⟩ | ⟨_, _, hr⟩ | ⟨_, hr⟩ | ⟨_, _⟩ | ⟨_, _⟩ |
    ⟨_, _⟩ | ⟨_, _, _⟩ | ⟨_, _⟩
  · simp [hr, Register.write, writeKey, busy, hp]
  · simp [hr, Register.write, writeState, busy, hp]
  · simp [hr, Register.write, issue, hp]
  all_goals omega

/-- R193: a STATUS write as one record. -/
theorem writeStatus_eq (v : Word) (s : State) :
    writeStatus v s = { s with
      done := if v.getLsbD 1 = true then false else s.done
      err := if v.getLsbD 3 = true then false else s.err
      errcode := if v.getLsbD 3 = true then 0 else s.errcode } := by
  unfold writeStatus
  cases v.getLsbD 1 <;> cases v.getLsbD 3 <;> simp

/-- Settles O27: each clause is the write of the register the offset names. -/
theorem writeReachesRegister : Obligations.WriteReachesRegister := by
  intro s rest off v h hp ha
  rw [step_write h ha]
  refine ⟨fun j hj => ⟨_, ?_, fun m => setReg_reg s.key j m v⟩,
    fun j hj => ⟨_, ?_, fun m => setReg_reg s.st j m v⟩, fun ho => ?_⟩
  · simp [registerAt_key hj, Register.write, writeKey, busy, hp]
  · simp [registerAt_state hj, Register.write, writeState, busy, hp]
  · rw [write_readOnly ha ho]

/-- Settles O28: each clause is the write of the register the offset names. -/
theorem busyWriteDropped : Obligations.BusyWriteDropped := by
  intro s rest off v c h hp ha
  rw [step_write h ha]
  refine ⟨fun ho => ?_, fun ho => ?_, fun ho => ?_, fun ho => ?_⟩
  · rw [write_dropped ha ho v { s with events := rest } hp, raiseError_eq]; rfl
  · rw [registerAt_status ho, Register.write, writeStatus_eq]
  · rw [registerAt_ctrl ho]; rfl
  · rw [write_readOnly ha ho]

/-! ### Repeated writes -/

/-- R23: of two writes to one register of a group the second counts. -/
@[simp] theorem setReg_setReg (b : Block) (j : Fin 4) (v w : Word) :
    (b.setReg j v).setReg j w = b.setReg j w := by
  fin_cases j <;> rfl

/-- R202: raising the same error again changes nothing. -/
theorem raiseError_raiseError (e : ErrorCode) (s : State) :
    raiseError e (raiseError e s) = raiseError e s := by
  rw [raiseError, if_pos (raiseError_err e s)]

/-- R56: a register other than CMD is the same after one write and after two. -/
theorem write_write {r : Register} (hr : r ≠ .cmd) (v : Word) (s : State) :
    r.write v (r.write v s) = r.write v s := by
  cases r with
  | key j =>
    cases hp : s.pending with
    | some c => simp [Register.write, writeKey, busy, hp, raiseError_raiseError]
    | none => simp [Register.write, writeKey, busy, hp]
  | state j =>
    cases hp : s.pending with
    | some c => simp [Register.write, writeState, busy, hp, raiseError_raiseError]
    | none => simp [Register.write, writeState, busy, hp]
  | cmd => exact absurd rfl hr
  | status =>
    simp only [Register.write, writeStatus_eq]
    cases v.getLsbD 1 <;> cases v.getLsbD 3 <;> rfl
  | ctrl | phase | rk | reserved => rfl

/-- R59: a register write does not read the list of happenings. -/
theorem write_with_events (r : Register) (v : Word) (s : State) (es : List Event) :
    r.write v { s with events := es } = { r.write v s with events := es } := by
  obtain ⟨_, hreply, hdraws⟩ := write_bus_fields r v s
  refine (write_with_bus_fields r v s es s.reply s.draws).trans ?_
  simp only [hreply, hdraws]

/-- R55: the step of an admitted write, the write made first and its happening taken off after. -/
theorem step_with_write (s : State) {off : BitVec 8} (v : Word) (rest : List Event)
    (ha : off.toNat % 4 = 0) :
    step { s with events := .write off 4 v :: rest } =
      .next { (registerAt off).write v s with events := rest } := by
  rw [step_write rfl ha, ← write_with_events]

/-- Settles O34: the two steps write the same register, which is not CMD (`write_write`). -/
theorem repeatedWriteIsIdempotent : Obligations.RepeatedWriteIsIdempotent := by
  intro s rest off v ha hne
  have hr : registerAt off ≠ .cmd := fun h => hne (by rw [off_of_registerAt_cmd ha h]; rfl)
  rw [run_succ 1 (step_with_write s v _ ha), run_succ 0 (step_with_write _ v rest ha),
    run_succ 0 (step_with_write s v rest ha), write_write hr]

/-! ### The pending command -/

/-- R58: everything a register write can do while a command is pending. -/
theorem write_cases_of_pending (r : Register) (v : Word) {s : State} {c : Word}
    (hp : s.pending = some c) :
    r.write v s = raiseError .busy s ∨ r.write v s = writeStatus v s ∨
      r.write v s = writeCtrl v s ∨ r.write v s = s := by
  cases r with
  | key | state | cmd => exact .inl (by simp [Register.write, writeKey, writeState, issue, busy, hp])
  | status => exact .inr (.inl rfl)
  | ctrl => exact .inr (.inr (.inl rfl))
  | phase | rk | reserved => exact .inr (.inr (.inr rfl))

/-- R54, R57: a read leaves PENDING. -/
theorem busRead_pending (off : BitVec 8) (n : Nat) (s : State) :
    (busRead off n s).pending = s.pending := by
  rcases busRead_cases off n s with ⟨_, _, h⟩ | ⟨_, _, h⟩ | ⟨_, h⟩ <;> simp [h]

/-- R53, R58: a write, admitted or not, leaves a pending command and the datapath. -/
theorem busWrite_of_pending (off : BitVec 8) (n : Nat) (v : Word) {s : State} {c : Word}
    (hp : s.pending = some c) :
    DatapathKept s (busWrite off n v s) ∧ (busWrite off n v s).pending = some c := by
  rcases busWrite_cases off n v s with ⟨_, hb⟩ | ⟨_, hb⟩ <;> rw [hb]
  · rcases write_cases_of_pending (registerAt off) v hp with h | h | h | h <;> rw [h]
    · exact ⟨raiseError_datapath .busy s, by simp [hp]⟩
    · exact ⟨⟨rfl, rfl, rfl, rfl, rfl⟩, hp⟩
    · exact ⟨⟨rfl, rfl, rfl, rfl, rfl⟩, hp⟩
    · exact ⟨⟨rfl, rfl, rfl, rfl, rfl⟩, hp⟩
  · exact ⟨raiseError_datapath .busAccess s, by simp [hp]⟩

/-- Settles O47: a transaction is a read or a write, and each leaves PENDING and the datapath. -/
theorem pendingCommandIsFrozen : Obligations.PendingCommandIsFrozen := by
  intro s t c hp htr hs
  rcases htr with ⟨off, n, rest, h⟩ | ⟨off, n, v, rest, h⟩ <;> rw [step_cons h] at hs <;> cases hs
  · obtain ⟨hkey, hst, hrk, hkv, hph⟩ := busRead_datapath off n { s with events := rest }
    exact ⟨(busRead_pending off n _).trans hp, hkey, hst, hrk, hkv, hph⟩
  · obtain ⟨⟨hkey, hst, hrk, hkv, hph⟩, hpend⟩ :=
      busWrite_of_pending off n v (s := { s with events := rest }) hp
    exact ⟨hpend, hkey, hst, hrk, hkv, hph⟩

end Sys2Proof.Machine
end

section
/-! PROOFS. The obligation of 20_memory.md about what reads returned: every operation commutes with a
change of the last reply and of the count of draws. -/

namespace Sys2Proof.Machine

/-- The same state but for the data of the last read and the count of draws. -/
def State.withBus (s : State) (r : Option Reply) (d : Nat) : State := { s with reply := r, draws := d }

section
variable (s : State) (r : Option Reply) (d : Nat)

@[simp] theorem withBus_keyValid : (s.withBus r d).keyValid = s.keyValid := rfl
@[simp] theorem withBus_phase : (s.withBus r d).phase = s.phase := rfl
@[simp] theorem withBus_pending : (s.withBus r d).pending = s.pending := rfl

/-- R202: recording an error does not read what reads returned. -/
theorem raiseError_withBus (e : ErrorCode) :
    raiseError e (s.withBus r d) = (raiseError e s).withBus r d := by
  rw [raiseError_eq, raiseError_eq]; rfl

/-- R203: a rejection does not read it. -/
theorem reject_withBus (e : ErrorCode) : reject e (s.withBus r d) = (reject e s).withBus r d := by
  rw [reject_eq, reject_eq]; rfl

/-- R54: no register's value depends on it. -/
theorem value_withBus (reg : Register) : reg.value (s.withBus r d) = reg.value s := by
  cases reg <;> rfl

/-- R53, R55: a write does not read it. -/
theorem busWrite_withBus (off : BitVec 8) (n : Nat) (v : Word) :
    busWrite off n v (s.withBus r d) = (busWrite off n v s).withBus r d := by
  unfold busWrite
  split
  · obtain ⟨hev, _, _⟩ := write_bus_fields (registerAt off) v s
    refine (write_with_bus_fields (registerAt off) v s s.events r d).trans ?_
    simp only [State.withBus, hev]
  · exact raiseError_withBus s r d .busAccess

/-- R57: a read sets the reply and may count a draw; what else it does depends on neither. -/
theorem busRead_withBus (off : BitVec 8) (n : Nat) :
    ∃ r' d', busRead off n (s.withBus r d) = (busRead off n s).withBus r' d' := by
  have hb : busy (s.withBus r d) = busy s := rfl
  unfold busRead
  rw [hb, value_withBus, raiseError_withBus]
  split_ifs <;> exact ⟨_, _, rfl⟩

end

/-- R81: no command reads it. -/
theorem exec_withBus {i : Instr} {s t : State} (h : exec i s = .next t) (r : Option Reply) (d : Nat) :
    exec i (s.withBus r d) = .next (t.withBus r d) := by
  cases i with
  | addrk n =>
    simp only [exec, execAddrk, reject_withBus, withBus_keyValid] at h ⊢
    split at h
    · cases h; rfl
    · split_ifs at h ⊢ <;> cases h <;> rfl
  | step =>
    simp only [exec, execStep, reject_withBus, withBus_keyValid, withBus_phase] at h ⊢
    split_ifs at h ⊢ <;> cases h <;> rfl
  | _ => cases h; rfl

/-- R81: the core's turn does not read it. -/
theorem coreTurn_withBus {s t : State} (h : coreTurn s = .next t) (r : Option Reply) (d : Nat) :
    coreTurn (s.withBus r d) = .next (t.withBus r d) := by
  rcases coreTurn_cases s with ⟨hp, hc⟩ | ⟨c, i, hp, hd, hc⟩ | ⟨c, e, hp, hd, hc⟩ <;> rw [hc] at h
  · cases h
    simp [coreTurn, hp]
  · simpa [coreTurn, hp, hd] using exec_withBus h r d
  · cases h
    simp [coreTurn, hp, hd, reject_withBus]

/-- R59: a happening depends on it only in what a read sets it to. -/
theorem happen_withBus {e : Event} {s t : State} (h : happen e s = .next t) (r : Option Reply)
    (d : Nat) : ∃ r' d', happen e (s.withBus r d) = .next (t.withBus r' d') := by
  cases e with
  | read off n =>
    cases h
    obtain ⟨r', d', hb⟩ := busRead_withBus s r d off n
    exact ⟨r', d', congrArg Host.Outcome.next hb⟩
  | write off n v =>
    cases h
    exact ⟨r, d, congrArg Host.Outcome.next (busWrite_withBus s r d off n v)⟩
  | reset => cases h; exact ⟨r, d, rfl⟩
  | complete => exact ⟨r, d, coreTurn_withBus h r d⟩

/-- R59: a step depends on it only in what a read sets it to. -/
theorem step_withBus {s t : State} (h : step s = .next t) (r : Option Reply) (d : Nat) :
    ∃ r' d', step (s.withBus r d) = .next (t.withBus r' d') := by
  cases hev : s.events with
  | nil =>
    rw [step_nil hev] at h
    exact ⟨r, d, (step_nil (s := s.withBus r d) hev).trans (coreTurn_withBus h r d)⟩
  | cons e rest =>
    rw [step_cons hev] at h
    obtain ⟨r', d', hh⟩ := happen_withBus h r d
    exact ⟨r', d', (step_cons (s := s.withBus r d) hev).trans hh⟩

/-- Settles O49: a step is a turn of the core or one happening, and only a read's own reply and draw can
differ (`step_withBus`). -/
theorem readsDoNotFeedBack : Obligations.ReadsDoNotFeedBack :=
  fun _ _ r d h => step_withBus h r d

end Sys2Proof.Machine
end

section
/-! PROOFS. The obligations of 30_encoding.md about decoding (R70 to R74): which words are rejected and
under which code, and that the accepted words are those of the well-formed instructions. -/

namespace Sys2Proof

/-! ### The opcode map (R72) -/

/-- R72: the reserved opcodes are 0x9 to 0xE. -/
theorem opcodeMap_eq_none (op n : BitVec 4) : opcodeMap op n = none ↔ 0x9 ≤ op ∧ op ≤ 0xE := by
  induction op using forall_opcode with
  | h k => fin_cases k <;> simp [opcodeMap]

/-- R70, R72: the fields of the word of an instruction that the map gives: OP and RND are the ones mapped,
where RND is zero on any opcode but ADDRK's. -/
theorem fields_encode_of_opcodeMap {op n : BitVec 4} {i : Instr} (h : opcodeMap op n = some i)
    (hz : op ≠ 6 → n = 0) :
    opField (encode i) = op ∧ rsv0Field (encode i) = 0 ∧ rndField (encode i) = n ∧
      rsv1Field (encode i) = 0 := by
  by_cases ho : op = 6
  · subst ho
    obtain rfl : .addrk n = i := Option.some.inj h
    obtain ⟨hrsv0, hrsv1, hrnd, hop⟩ := Laws.FieldsOfWord.addrk n
    exact ⟨hop, hrsv0, hrnd, hrsv1⟩
  · obtain rfl := hz ho
    induction op using forall_opcode with
    | h k => fin_cases k <;> cases h <;> decide

/-- R73: the checks that read KEY_VALID and PHASE, by the opcode. -/
theorem stateError_of_opcodeMap {op n : BitVec 4} {i : Instr} (h : opcodeMap op n = some i)
    (kv : Bool) (p : Fin 41) :
    i.stateError kv p =
      if (op = 6 ∨ op = 8) ∧ kv = false then some .noKey
      else if op = 8 ∧ p = 40 then some .seqEnd
      else none := by
  induction op using forall_opcode with
  | h k => fin_cases k <;> cases h <;> simp [Instr.stateError]

/-! ### The checks of KEY_VALID and PHASE (R73) -/

section
variable {n : BitVec 4} {kv : Bool} {p : Fin 41}

theorem stateError_addrk_of_noKey (hk : kv = false) : (Instr.addrk n).stateError kv p = some .noKey :=
  if_pos hk

theorem stateError_addrk_eq_none : (Instr.addrk n).stateError kv p = none ↔ kv = true := by
  cases kv <;> simp [Instr.stateError]

theorem stateError_step_of_noKey (hk : kv = false) : Instr.step.stateError kv p = some .noKey :=
  if_pos hk

theorem stateError_step_of_seqEnd (hk : kv = true) (hp : p = 40) :
    Instr.step.stateError kv p = some .seqEnd := by
  simp [Instr.stateError, hk, hp]

theorem stateError_step_eq_none : Instr.step.stateError kv p = none ↔ kv = true ∧ p ≠ 40 := by
  cases kv <;> simp [Instr.stateError]

end

/-! ### The word's own checks (R73, R74) -/

section
variable {c : Word}

/-- R73, first check: RSV1 and RSV0 are zero. -/
theorem decodeWord_of_reserved_bits (h : rsv1Field c ≠ 0 ∨ rsv0Field c ≠ 0) :
    decodeWord c = .error .illegalCmd :=
  if_pos h

/-- R73, second check: the opcode is not reserved.  It gives the same code as the first. -/
theorem decodeWord_of_reserved_opcode (h : 0x9 ≤ opField c ∧ opField c ≤ 0xE) :
    decodeWord c = .error .illegalCmd := by
  simp [decodeWord, (opcodeMap_eq_none _ _).2 h]

/-- R73, third check: only ADDRK has RND.  It gives the same code as the first two. -/
theorem decodeWord_of_stray_round (h : opField c ≠ 6 ∧ rndField c ≠ 0) :
    decodeWord c = .error .illegalCmd := by
  simp only [decodeWord, if_pos h]
  split
  · rfl
  · split <;> rfl

/-- R73, fourth check: ADDRK's RND is at most 10.  The second and the third pass on ADDRK's opcode. -/
theorem decodeWord_of_bad_round (hr : ¬(rsv1Field c ≠ 0 ∨ rsv0Field c ≠ 0))
    (h : opField c = 6 ∧ 10 < rndField c) : decodeWord c = .error .badRound := by
  have hm : opcodeMap (opField c) (rndField c) = some (.addrk (rndField c)) := by rw [h.1]; rfl
  have hz : ¬(opField c ≠ 6 ∧ rndField c ≠ 0) := fun hz => hz.1 h.1
  simp only [decodeWord, if_neg hr, hm, if_neg hz]
  exact if_pos h

/-- R73: a word that passes the four checks decodes to the instruction of its opcode. -/
theorem decodeWord_of_checks (hr : ¬(rsv1Field c ≠ 0 ∨ rsv0Field c ≠ 0))
    (ho : ¬(0x9 ≤ opField c ∧ opField c ≤ 0xE)) (hz : ¬(opField c ≠ 6 ∧ rndField c ≠ 0))
    (hb : ¬(opField c = 6 ∧ 10 < rndField c)) :
    ∃ i, opcodeMap (opField c) (rndField c) = some i ∧ decodeWord c = .ok i := by
  obtain ⟨i, hm⟩ := Option.ne_none_iff_exists'.1 (mt (opcodeMap_eq_none _ _).1 ho)
  refine ⟨i, hm, ?_⟩
  simp only [decodeWord, if_neg hr, hm, if_neg hz]
  exact if_neg hb

/-- R73: what the fields of an accepted word are. -/
theorem fields_of_decodeWord_ok {i : Instr} (h : decodeWord c = .ok i) :
    rsv1Field c = 0 ∧ rsv0Field c = 0 ∧ opcodeMap (opField c) (rndField c) = some i ∧
      (opField c ≠ 6 → rndField c = 0) := by
  have passes {p : Prop} {e : ErrorCode} (hp : p → decodeWord c = .error e) : ¬p := fun hc =>
    nomatch h.symm.trans (hp hc)
  have hr := passes decodeWord_of_reserved_bits
  have hz := passes decodeWord_of_stray_round
  obtain ⟨j, hm, hj⟩ := decodeWord_of_checks hr (passes decodeWord_of_reserved_opcode) hz
    (passes (decodeWord_of_bad_round hr))
  obtain rfl : j = i := Except.ok.inj (hj.symm.trans h)
  simp only [not_or, not_not, not_and] at hr hz
  exact ⟨hr.1, hr.2, hm, hz⟩

end

/-! ### Decoding and encoding -/

/-- R71, R73: an instruction's word decodes to it, or is rejected with BAD_ROUND where its operand is not
legal. -/
theorem decodeWord_encode (i : Instr) :
    decodeWord (encode i) = if i.wellFormed then .ok i else .error .badRound := by
  cases i with
  | addrk n =>
    induction n using forall_opcode with
    | h k => fin_cases k <;> rfl
  | _ => rfl

/-- R72, R73: an accepted word is the command word of its instruction. -/
theorem eq_encode_of_decodeWord {c : Word} {i : Instr} (h : decodeWord c = .ok i) : c = encode i := by
  obtain ⟨hrsv1, hrsv0, hm, hz⟩ := fields_of_decodeWord_ok h
  obtain ⟨hop, henc0, hrnd, henc1⟩ := fields_encode_of_opcodeMap hm hz
  exact word_eq_of_fields hop.symm (hrsv0.trans henc0.symm) hrnd.symm (hrsv1.trans henc1.symm)

/-- Settles O1: an accepted word has the four fields of its instruction's word, and a command word is
rejected only where the operand is not legal (`decodeWord_encode`). -/
theorem decodeIffEncode : Obligations.DecodeIffEncode := by
  intro c i
  constructor
  · intro h
    obtain rfl := eq_encode_of_decodeWord h
    rw [decodeWord_encode] at h
    split at h
    case isTrue hw => exact ⟨hw, rfl⟩
    case isFalse => cases h
  · rintro ⟨hw, rfl⟩
    rw [decodeWord_encode, if_pos hw]

/-! ### Rejection by the register interface (R73, R74) -/

section
variable {c : Word} {kv : Bool} {p : Fin 41} {i : Instr} {e : ErrorCode}

/-- R73: the word's own checks come before those of KEY_VALID and PHASE. -/
theorem decodeCommand_of_word_error (h : decodeWord c = .error e) : decodeCommand c kv p = .error e := by
  rw [decodeCommand, h]

/-- R73: a well-formed instruction's word is turned away by the checks of KEY_VALID and PHASE alone. -/
theorem decodeCommand_encode_of_stateError (hw : i.wellFormed = true) (hs : i.stateError kv p = some e) :
    decodeCommand (encode i) kv p = .error e := by
  rw [decodeCommand, decodeWord_encode, if_pos hw]
  simp only [hs]

/-- R73: a well-formed instruction's word is accepted where those checks pass. -/
theorem decodeCommand_encode_of_accepted (hw : i.wellFormed = true) (hs : i.stateError kv p = none) :
    decodeCommand (encode i) kv p = .ok i :=
  decodeCommand_ok.2 ⟨by rw [decodeWord_encode, if_pos hw], hs⟩

/-- R74: the words of the illegal classes. -/
theorem decodeCommand_of_illegal
    (h : rsv1Field c ≠ 0 ∨ rsv0Field c ≠ 0 ∨ (0x9 ≤ opField c ∧ opField c ≤ 0xE) ∨
      (rndField c ≠ 0 ∧ opField c ≠ 6)) : decodeCommand c kv p = .error .illegalCmd := by
  refine decodeCommand_of_word_error ?_
  rcases h with h | h | h | ⟨hz, ho⟩
  · exact decodeWord_of_reserved_bits (.inl h)
  · exact decodeWord_of_reserved_bits (.inr h)
  · exact decodeWord_of_reserved_opcode h
  · exact decodeWord_of_stray_round ⟨ho, hz⟩

end

/-- R71: ADDRK with RND in 0..10 is well-formed. -/
theorem wellFormed_addrk_of_le {n : BitVec 4} (h : n ≤ 10) : (Instr.addrk n).wellFormed = true :=
  decide_eq_true h

/-- R71: ADDRK with RND above 10 is not. -/
theorem wellFormed_addrk_of_gt {n : BitVec 4} (h : 10 < n) : (Instr.addrk n).wellFormed = false :=
  decide_eq_false (BitVec.not_le.2 h)

/-- R74: ADDRK with RND in 11..15. -/
theorem decodeCommand_addrk_of_gt {n : BitVec 4} (h : 10 < n) (kv : Bool) (p : Fin 41) :
    decodeCommand (encode (.addrk n)) kv p = .error .badRound := by
  refine decodeCommand_of_word_error ?_
  simp [decodeWord_encode, wellFormed_addrk_of_gt h]

/-- Settles O3: the checks in the rule's order; for a word that passes its own four, the last two are its
instruction's (`stateError_of_opcodeMap`). -/
theorem decodeFollowsCheckOrder : Obligations.DecodeFollowsCheckOrder := by
  intro c kv p e
  rw [← rsv1Field, ← rsv0Field, ← opField, ← rndField]
  have rejects {a : ErrorCode} (h : decodeWord c = .error a) :
      decodeCommand c kv p = .error e ↔ some a = some e := by
    simp [decodeCommand_of_word_error h]
  by_cases hr : rsv1Field c ≠ 0 ∨ rsv0Field c ≠ 0
  · rw [if_pos hr]
    exact rejects (decodeWord_of_reserved_bits hr)
  by_cases ho : 0x9 ≤ opField c ∧ opField c ≤ 0xE
  · rw [if_neg hr, if_pos ho]
    exact rejects (decodeWord_of_reserved_opcode ho)
  by_cases hz : opField c ≠ 6 ∧ rndField c ≠ 0
  · rw [if_neg hr, if_neg ho, if_pos hz]
    exact rejects (decodeWord_of_stray_round hz)
  by_cases hb : opField c = 6 ∧ 10 < rndField c
  · rw [if_neg hr, if_neg ho, if_neg hz, if_pos hb]
    exact rejects (decodeWord_of_bad_round hr hb)
  obtain ⟨i, hm, hd⟩ := decodeWord_of_checks hr ho hz hb
  rw [if_neg hr, if_neg ho, if_neg hz, if_neg hb, ← stateError_of_opcodeMap hm kv p]
  simp only [decodeCommand, hd]
  cases i.stateError kv p <;> simp

/-- Settles O4: each class fails one check, and ADDRK above 10 fails the fourth. -/
theorem illegalWordsRejected : Obligations.IllegalWordsRejected := by
  refine fun c kv p => ⟨fun h => ?_, fun h => ?_, fun hl hu => ?_, fun hz ho => ?_, ?_⟩
  · exact decodeCommand_of_illegal (.inl h)
  · exact decodeCommand_of_illegal (.inr (.inl h))
  · exact decodeCommand_of_illegal (.inr (.inr (.inl ⟨hl, hu⟩)))
  · exact decodeCommand_of_illegal (.inr (.inr (.inr ⟨hz, ho⟩)))
  · rintro n hn rfl
    exact decodeCommand_addrk_of_gt hn kv p

/-- Settles O2: each word evaluates. -/
theorem listedWordsDecode : Obligations.ListedWordsDecode :=
  ⟨rfl, rfl, rfl, rfl, rfl, rfl, rfl, rfl⟩

end Sys2Proof
end

section
/-! PROOFS. The obligations of 30_encoding.md about issue and completion (R80, R81): what a CMD write does,
what the core's turn does, and that the two together are the command. -/

namespace Sys2Proof.Machine

/-! ### The CMD write (R80) -/

section
variable {s : State} {c : Word} {rest : List Event}

/-- R55, R80: the step of a CMD write is the issue of its word. -/
theorem step_cmdWrite (h : s.events = .write 0x20 4 c :: rest) :
    step s = .next (issue c { s with events := rest }) := by
  rw [step_write h rfl, registerAt_cmd rfl, Register.write]

/-- R58, R80: with a command pending, a CMD write raises BUSY. -/
theorem step_cmdWrite_of_pending {d : Word} (h : s.events = .write 0x20 4 c :: rest)
    (hp : s.pending = some d) :
    step s = .next { s with events := rest, err := true, errcode := firstError s 2 } := by
  simp only [step_cmdWrite h, issue, hp]
  rw [raiseError_eq]
  rfl

/-- R80: an accepted word becomes pending. -/
theorem step_cmdWrite_of_accepted {i : Instr} (h : s.events = .write 0x20 4 c :: rest)
    (hp : s.pending = none) (hd : decodeCommand c s.keyValid s.phase = .ok i) :
    step s = .next { s with events := rest, pending := some c } := by
  simp only [step_cmdWrite h, issue, hp, hd]

/-- R80, R203: a rejected word records its error and sets DONE. -/
theorem step_cmdWrite_of_rejected {e : ErrorCode} (h : s.events = .write 0x20 4 c :: rest)
    (hp : s.pending = none) (hd : decodeCommand c s.keyValid s.phase = .error e) :
    step s = .next
      { s with events := rest, err := true, errcode := firstError s e.code, done := true } := by
  simp only [step_cmdWrite h, issue, hp, hd, reject_eq, firstError]

end

/-- Settles O5: pending, accepted and rejected; an illegal word is rejected with ILLEGAL_CMD. -/
theorem cmdWriteIssues : Obligations.CmdWriteIssues := by
  refine fun s rest c h => ⟨fun d hp => ?_, fun hp i hd => ?_, fun hp e hd => ?_, fun hp hc => ?_⟩
  · exact step_cmdWrite_of_pending h hp
  · exact step_cmdWrite_of_accepted h hp hd
  · exact step_cmdWrite_of_rejected h hp hd
  · exact step_cmdWrite_of_rejected h hp (decodeCommand_of_illegal hc)

/-- Settles O20: each clause is a CMD write of a word that `decodeCommand` rejects. -/
theorem addrkAndStepTurnedAway : Obligations.AddrkAndStepTurnedAway := by
  refine ⟨fun s rest n hp hn h => ?_, fun s rest n hp hn hk h => ?_, fun s rest hp hk h => ?_,
    fun s rest hp hk hph h => ?_⟩
  · exact step_cmdWrite_of_rejected h hp (decodeCommand_addrk_of_gt hn _ _)
  · exact step_cmdWrite_of_rejected h hp (decodeCommand_encode_of_stateError
      (wellFormed_addrk_of_le hn) (stateError_addrk_of_noKey hk))
  · exact step_cmdWrite_of_rejected h hp (decodeCommand_encode_of_stateError rfl
      (stateError_step_of_noKey hk))
  · exact step_cmdWrite_of_rejected h hp (decodeCommand_encode_of_stateError rfl
      (stateError_step_of_seqEnd hk hph))

/-! ### The core's turn (R81) -/

/-- R81: with nothing pending the core does nothing. -/
theorem coreTurn_of_idle {s : State} (hp : s.pending = none) : coreTurn s = .next s := by
  rw [coreTurn, hp]

/-- R81: the core executes the instruction of the pending word. -/
theorem coreTurn_of_pending {s : State} {c : Word} {i : Instr} (hp : s.pending = some c)
    (hd : decodeWord c = .ok i) : coreTurn s = exec i s := by
  simp only [coreTurn, hp, hd]

/-- R59, R81: the step that executes the pending word when nothing is listed. -/
theorem step_nil_of_pending {s : State} {c : Word} {i : Instr} (h : s.events = [])
    (hp : s.pending = some c) (hd : decodeWord c = .ok i) : step s = exec i s :=
  (step_nil h).trans (coreTurn_of_pending hp hd)

/-- R59, R81: the step that executes the pending word when `Complete` is first in the list. -/
theorem step_complete_of_pending {s : State} {rest : List Event} {c : Word} {i : Instr}
    (h : s.events = .complete :: rest) (hp : s.pending = some c) (hd : decodeWord c = .ok i) :
    step s = exec i { s with events := rest } :=
  (step_cons h).trans (coreTurn_of_pending (s := { s with events := rest }) hp hd)

/-- Settles O6: the step is the core's turn, at the state less its happening. -/
theorem stepRunsPendingCommand : Obligations.StepRunsPendingCommand := by
  refine ⟨fun s c i => step_nil_of_pending, fun s rest c i => step_complete_of_pending,
    fun s h hp => ?_, fun s rest h hp => ?_⟩
  · exact (step_nil h).trans (coreTurn_of_idle hp)
  · exact (step_cons h).trans (coreTurn_of_idle (s := { s with events := rest }) hp)

/-- Settles O7: the first step makes the word pending, the second executes the instruction it decodes
to. -/
theorem issueThenCompleteRunsInstr : Obligations.IssueThenCompleteRunsInstr := by
  intro s rest i hp hw hs h
  have hissue := step_cmdWrite_of_accepted h hp (decodeCommand_encode_of_accepted hw hs)
  have hcomplete : step { s with events := .complete :: rest, pending := some (encode i) } =
      exec i { s with events := rest, pending := some (encode i) } :=
    step_complete_of_pending rfl rfl ((decodeIffEncode _ i).2 ⟨hw, rfl⟩)
  obtain ⟨t, ht⟩ := exec_next i { s with events := rest, pending := some (encode i) }
  rw [run_succ 1 hissue, run_succ 0 (hcomplete.trans ht), ht]
  rfl

/-! ### Execution under the issue checks (R73, assumption log 7) -/

/-- R71: the round index of a legal operand. -/
theorem roundIndex_of_le {n : BitVec 4} (h : n ≤ 10) : ∃ r, roundIndex n = some r :=
  ⟨_, dif_pos (Nat.lt_succ_of_le h)⟩

/-- R71: an operand above 10 has no round index. -/
theorem roundIndex_of_gt {n : BitVec 4} (h : 10 < n) : roundIndex n = none :=
  dif_neg (Nat.not_lt.2 h)

/-- R147: ADDRK above 10 is rejected, whatever the state. -/
theorem exec_addrk_of_gt {n : BitVec 4} (h : 10 < n) (s : State) :
    exec (.addrk n) s = .next (reject .badRound s) := by
  simp only [exec, execAddrk, roundIndex_of_gt h]

/-- R73: a command executed where the checks of KEY_VALID and PHASE turn it away takes that rejection. -/
theorem exec_of_stateError {i : Instr} {s : State} {e : ErrorCode} (hw : i.wellFormed = true)
    (h : i.stateError s.keyValid s.phase = some e) : exec i s = .next (reject e s) := by
  cases i with
  | addrk n =>
    obtain ⟨r, hr⟩ := roundIndex_of_le (of_decide_eq_true hw)
    cases hk : s.keyValid with
    | true =>
      rw [stateError_addrk_eq_none.2 hk] at h
      cases h
    | false =>
      rw [stateError_addrk_of_noKey hk] at h
      cases h
      simp [exec, execAddrk, hr, hk]
  | step =>
    cases hk : s.keyValid with
    | false =>
      rw [stateError_step_of_noKey hk] at h
      cases h
      simp [exec, execStep, hk]
    | true =>
      by_cases hp : s.phase = 40
      · rw [stateError_step_of_seqEnd hk hp] at h
        cases h
        simp [exec, execStep, hk, hp]
      · rw [stateError_step_eq_none.2 ⟨hk, hp⟩] at h
        cases h
  | _ => cases h

/-- R81, R200: a command executed where those checks pass raises no error. -/
theorem exec_keeps_error {i : Instr} {s t : State} (hw : i.wellFormed = true)
    (h : i.stateError s.keyValid s.phase = none) (hx : exec i s = .next t) :
    t.err = s.err ∧ t.errcode = s.errcode := by
  cases i with
  | addrk n =>
    obtain ⟨r, hr⟩ := roundIndex_of_le (of_decide_eq_true hw)
    have hk := stateError_addrk_eq_none.1 h
    simp only [exec, execAddrk, hr, hk] at hx
    cases hx
    exact ⟨rfl, rfl⟩
  | step =>
    obtain ⟨hk, hp⟩ := stateError_step_eq_none.1 h
    have hlt : s.phase.val + 1 < 41 := by omega
    simp only [exec, execStep, hk, hlt] at hx
    cases hx
    exact ⟨rfl, rfl⟩
  | _ =>
    cases hx
    exact ⟨rfl, rfl⟩

/-- Settles O21: the rejection of each failing check, as one record. -/
theorem execRepeatsIssueChecks : Obligations.ExecRepeatsIssueChecks := by
  refine ⟨fun s n hn => ?_, fun s n hn hk => ?_, fun s hk => ?_, fun s hk hp => ?_⟩
  · rw [exec_addrk_of_gt hn, reject_eq]; rfl
  · rw [exec_of_stateError (wellFormed_addrk_of_le hn) (stateError_addrk_of_noKey hk), reject_eq]; rfl
  · rw [exec_of_stateError rfl (stateError_step_of_noKey hk), reject_eq]; rfl
  · rw [exec_of_stateError rfl (stateError_step_of_seqEnd hk hp), reject_eq]; rfl

/-- Settles O8: the pending word passed the issue checks, by the invariant, so its execution meets none
of them again. -/
theorem acceptedCommandNeverFails : Obligations.AcceptedCommandNeverFails := by
  intro s c hinv hn hp
  obtain ⟨i, hi⟩ := hinv.pending_accepted c hp
  obtain ⟨hd, hs⟩ := decodeCommand_ok.1 hi
  obtain ⟨hw, _⟩ := (decodeIffEncode c i).1 hd
  obtain ⟨es, hstep⟩ : ∃ es, step s = exec i { s with events := es } := by
    rcases hn with hev | ⟨rest, hev⟩
    · exact ⟨s.events, step_nil_of_pending hev hp hd⟩
    · exact ⟨rest, step_complete_of_pending hev hp hd⟩
  obtain ⟨t, ht⟩ := exec_next i { s with events := es }
  obtain ⟨hpend, hdone, hirq, _⟩ := exec_frame ht
  obtain ⟨herr, hcode⟩ := exec_keeps_error (s := { s with events := es }) hw hs ht
  exact ⟨t, hstep.trans ht, hpend, hdone, herr, hcode, hirq⟩

end Sys2Proof.Machine
end

section
/-! PROOFS. The obligations of 40_field_and_tables.md about the field (R100 to R104). Multiplication by
x and addition commute with the product's loop, and every byte is made from 1 by these two: the laws of the
product follow by induction over bytes. That inverses exist is checked once, on the S-box table, which
holds them all. -/

namespace Sys2Proof.Machine

/-! ### Multiplication by x (R102) -/

/-- R101: a byte added on the exclusive-or of two conditions is added on each of them. -/
theorem ite_xor (s t : Bool) (c : Byte) :
    (if s ^^ t then c else 0) = (if s then c else 0) ^^^ (if t then c else 0) := by
  cases s <;> cases t <;> simp

/-- R101, R102: xtime distributes over addition. -/
theorem xtime_xor (a b : Byte) : xtime (a ^^^ b) = xtime a ^^^ xtime b := by
  simp only [xtime, BitVec.shiftLeft_xor_distrib, BitVec.getLsbD_xor, ite_xor]
  ac_rfl

/-- R100, R102: a polynomial is x times its higher part, plus its constant term. -/
theorem xtime_ushiftRight (b : Byte) :
    xtime (b >>> 1) ^^^ (if b.getLsbD 0 then 1 else 0) = b := by
  have hx : xtime (b >>> 1) = b >>> 1 <<< 1 := by simp [xtime]
  refine BitVec.eq_of_getLsbD_eq fun i hi => ?_
  rw [hx, BitVec.getLsbD_xor]
  cases i with
  | zero => cases b.getLsbD 0 <;> simp
  | succ i => cases b.getLsbD 0 <;> simp [hi, Nat.add_comm 1 i]

/-- R100: every byte is made from 1 by multiplication by x and addition. -/
theorem byte_induction {P : Byte → Prop} (one : P 1) (xtime : ∀ a, P a → P (xtime a))
    (xor : ∀ a b, P a → P b → P (a ^^^ b)) (b : Byte) : P b := by
  have zero : P 0 := xor 1 1 one one
  induction hn : b.toNat using Nat.strong_induction_on generalizing b with
  | _ n ih =>
    by_cases hb : b = 0
    · exact hb ▸ zero
    · have hlt : (b >>> 1).toNat < n := by
        have : b.toNat ≠ 0 := fun h => hb (BitVec.eq_of_toNat_eq h)
        rw [BitVec.toNat_ushiftRight, Nat.shiftRight_eq_div_pow]
        omega
      have hlow : P (if b.getLsbD 0 then 1 else 0) := by
        split
        exacts [one, zero]
      rw [← xtime_ushiftRight b]
      exact xor _ _ (xtime _ (ih _ hlt _ rfl)) hlow

/-! ### The laws of the product (R103) -/

/-- R103: one round of the loop, its branch as a term added to the accumulator. -/
theorem gmulFrom_succ (fuel i : Nat) (p a b : Byte) :
    gmulFrom (fuel + 1) i p a b =
      gmulFrom fuel (i + 1) (p ^^^ if b.getLsbD i then a else 0) (xtime a) b := by
  rw [gmulFrom]
  congr 1
  split
  · rfl
  · exact BitVec.xor_zero.symm

/-- R103: adding accumulators and left factors adds the loop's products. -/
theorem gmulFrom_xor_left (fuel i : Nat) (p q a a' b : Byte) :
    gmulFrom fuel i (p ^^^ q) (a ^^^ a') b = gmulFrom fuel i p a b ^^^ gmulFrom fuel i q a' b := by
  induction fuel generalizing i p q a a' with
  | zero => rfl
  | succ fuel ih =>
    have hterm (c : Bool) : (if c then a ^^^ a' else 0) =
        (if c then a else 0) ^^^ (if c then a' else 0) := by cases c <;> simp
    simp only [gmulFrom_succ, xtime_xor, hterm, ← ih]
    congr 1
    ac_rfl

/-- R103: adding accumulators and right factors adds the loop's products. -/
theorem gmulFrom_xor_right (fuel i : Nat) (p q a b b' : Byte) :
    gmulFrom fuel i (p ^^^ q) a (b ^^^ b') = gmulFrom fuel i p a b ^^^ gmulFrom fuel i q a b' := by
  induction fuel generalizing i p q a with
  | zero => rfl
  | succ fuel ih =>
    simp only [gmulFrom_succ, BitVec.getLsbD_xor, ite_xor, ← ih]
    congr 1
    ac_rfl

/-- R103: multiplying the loop's accumulator and left factor by x multiplies its product by x. -/
theorem gmulFrom_xtime (fuel i : Nat) (p a b : Byte) :
    gmulFrom fuel i (xtime p) (xtime a) b = xtime (gmulFrom fuel i p a b) := by
  induction fuel generalizing i p a with
  | zero => rfl
  | succ fuel ih =>
    simp only [gmulFrom, ← ih]
    congr 1
    split
    · exact (xtime_xor p a).symm
    · rfl

/-- R101, R103: the product distributes over addition on the left. -/
theorem gmul_xor_left (a a' b : Byte) : gmul (a ^^^ a') b = gmul a b ^^^ gmul a' b :=
  gmulFrom_xor_left 8 0 0 0 a a' b

/-- R101, R103: the product distributes over addition on the right. -/
theorem gmul_xor_right (a b b' : Byte) : gmul a (b ^^^ b') = gmul a b ^^^ gmul a b' :=
  gmulFrom_xor_right 8 0 0 0 a b b'

/-- R102, R103: x moves out of the left factor. -/
theorem gmul_xtime_left (a b : Byte) : gmul (xtime a) b = xtime (gmul a b) :=
  gmulFrom_xtime 8 0 0 a b

/-- R103: with left factor 1 the loop adds up the powers of x that `b` has. -/
theorem gmul_one_left : ∀ b : Byte, gmul 1 b = b := by decide

/-- R103: zero times a byte is zero. -/
theorem gmul_zero_left (b : Byte) : gmul 0 b = 0 := by
  simpa using gmul_xor_left 0 0 b

/-- R102, R103: x moves out of the right factor. -/
theorem gmul_xtime_right (a b : Byte) : gmul a (xtime b) = xtime (gmul a b) := by
  induction a using byte_induction with
  | one => rw [gmul_one_left, gmul_one_left]
  | xtime a ih => rw [gmul_xtime_left, ih, gmul_xtime_left]
  | xor a a' ih ih' => rw [gmul_xor_left, ih, ih', gmul_xor_left, xtime_xor]

/-- R103: 1 is neutral on the right. -/
theorem gmul_one_right (a : Byte) : gmul a 1 = a := by
  induction a using byte_induction with
  | one => rfl
  | xtime a ih => rw [gmul_xtime_left, ih]
  | xor a a' ih ih' => rw [gmul_xor_left, ih, ih']

/-- R103: the product is commutative. -/
theorem gmul_comm (a b : Byte) : gmul a b = gmul b a := by
  induction b using byte_induction with
  | one => rw [gmul_one_left, gmul_one_right]
  | xtime b ih => rw [gmul_xtime_right, ih, gmul_xtime_left]
  | xor b b' ih ih' => rw [gmul_xor_right, ih, ih', gmul_xor_left]

/-- R103: the product is associative. -/
theorem gmul_assoc (a b c : Byte) : gmul (gmul a b) c = gmul a (gmul b c) := by
  induction a using byte_induction with
  | one => rw [gmul_one_left, gmul_one_left]
  | xtime a ih => simp only [gmul_xtime_left, ih]
  | xor a a' ih ih' => simp only [gmul_xor_left, ih, ih']

/-- R103: multiplication by 2. -/
theorem gmul_two (a : Byte) : gmul 2 a = xtime a :=
  (gmul_xtime_left 1 a).trans (by rw [gmul_one_left])

/-- R103: multiplication by 3. -/
theorem gmul_three (a : Byte) : gmul 3 a = xtime a ^^^ a :=
  (gmul_xor_left 2 1 a).trans (by rw [gmul_two, gmul_one_left])

/-! ### Inverses (R104) -/

/-- R104: a byte has at most one inverse. -/
theorem inverse_unique {a b b' : Byte} (h : gmul a b = 1) (h' : gmul a b' = 1) : b' = b :=
  calc b' = gmul (gmul a b) b' := by rw [h, gmul_one_left]
    _ = gmul b (gmul a b') := by rw [gmul_comm a b, gmul_assoc]
    _ = b := by rw [h', gmul_one_right]

/-- R104: the search for the inverse finds it where there is one. -/
theorem ginv_eq_of_gmul {a b : Byte} (h : gmul a b = 1) : ginv a = b := by
  have hmem : b ∈ (List.range 256).map (BitVec.ofNat 8) :=
    List.mem_map.2 ⟨b.toNat, List.mem_range.2 b.isLt, BitVec.eq_of_toNat_eq (by simp)⟩
  cases hf : ((List.range 256).map (BitVec.ofNat 8)).find? fun b => gmul a b == 1 with
  | none => exact absurd (List.find?_eq_none.1 hf b hmem) (by simp [h])
  | some c =>
    have hc : gmul a c = 1 := by simpa using List.find?_some hf
    rw [ginv, hf, Option.getD_some, inverse_unique h hc]

/-- R104: the search finds no inverse of zero. -/
theorem ginv_zero : ginv 0 = 0 := by
  have hnone : ((List.range 256).map (BitVec.ofNat 8)).find? (fun b => gmul 0 b == 1) = none :=
    List.find?_eq_none.2 fun b _ => by simp only [gmul_zero_left]; decide
  rw [ginv, hnone, Option.getD_none]

/-- R106: the affine transform undone: bit `i` is `s[i+2] ^ s[i+5] ^ s[i+7]`, indices modulo 8, after the
constant `0x05` is added. -/
def unaffine (s : Byte) : Byte := s.rotateRight 2 ^^^ s.rotateRight 5 ^^^ s.rotateRight 7 ^^^ 0x05

/-- R106: `unaffine` is a right inverse of the affine transform. -/
theorem affine_unaffine : ∀ s : Byte, affine (unaffine s) = s := by decide

/-- R106: the table, the affine transform undone, holds an inverse of every byte but zero. -/
theorem gmul_unaffine_sbox : ∀ a : Byte, a ≠ 0 → gmul a (unaffine (sbox a)) = 1 := by decide

/-- R104, R106: the inverse is what the table holds. -/
theorem ginv_eq_unaffine_sbox (a : Byte) : ginv a = unaffine (sbox a) := by
  by_cases ha : a = 0
  · subst ha
    rw [ginv_zero]
    decide
  · exact ginv_eq_of_gmul (gmul_unaffine_sbox a ha)

/-- R104: every byte but zero has the inverse `ginv` finds. -/
theorem gmul_ginv {a : Byte} (ha : a ≠ 0) : gmul a (ginv a) = 1 := by
  rw [ginv_eq_unaffine_sbox, gmul_unaffine_sbox a ha]

/-- R104: the inverse of the inverse is the byte itself. -/
theorem ginv_ginv (a : Byte) : ginv (ginv a) = a := by
  by_cases ha : a = 0
  · rw [ha, ginv_zero, ginv_zero]
  · exact ginv_eq_of_gmul (by rw [gmul_comm, gmul_ginv ha])

/-- Settles O50: xtime's corner cases by evaluation, the product's laws by induction over bytes, and the
inverse by `ginv`. -/
theorem fieldProductLaws : Obligations.FieldProductLaws := by
  refine ⟨by decide, by decide, by decide, by decide, fun a => ?_, gmul_comm, fun a ha => ?_⟩
  · exact ⟨gmul_zero_left a, gmul_one_left a, gmul_two a, gmul_three a⟩
  · exact ⟨ginv a, gmul_ginv ha, fun _ => inverse_unique (gmul_ginv ha)⟩

end Sys2Proof.Machine
end

section
/-! PROOFS. The obligations of 40_field_and_tables.md about the tables SBOX and RCON (R105 to R109). -/

namespace Sys2Proof.Machine

/-- R106: the S-box is the affine transform of the field inverse. -/
theorem sbox_eq_affine_ginv (a : Byte) : sbox a = affine (ginv a) := by
  rw [ginv_eq_unaffine_sbox, affine_unaffine]

/-- R106: the affine transform by bit. -/
theorem affine_getLsbD (b : Byte) {i : Nat} (hi : i < 8) :
    (affine b).getLsbD i =
      (b.getLsbD i ^^ b.getLsbD ((i + 4) % 8) ^^ b.getLsbD ((i + 5) % 8) ^^ b.getLsbD ((i + 6) % 8)
        ^^ b.getLsbD ((i + 7) % 8) ^^ (0x63 : Byte).getLsbD i) := by
  have hrot (k : Nat) (hk : k < 8) : (b.rotateRight k).getLsbD i = b.getLsbD ((i + k) % 8) := by
    rw [BitVec.getLsbD_rotateRight, Nat.mod_eq_of_lt hk]
    by_cases h : i < 8 - k
    · rw [decide_eq_true h, cond_true, Nat.mod_eq_of_lt (by omega), Nat.add_comm]
    · rw [decide_eq_false h, cond_false, decide_eq_true hi, Bool.true_and,
        show (i + k) % 8 = i - (8 - k) by omega]
  simp only [affine, BitVec.getLsbD_xor, hrot, Nat.reduceLT]

/-- R107: different bytes have different entries, since the inverse can be read back from the table. -/
theorem sbox_injective : Function.Injective sbox := by
  intro a b h
  have hinv : ginv a = ginv b := by rw [ginv_eq_unaffine_sbox, h, ginv_eq_unaffine_sbox]
  rw [← ginv_ginv a, hinv, ginv_ginv]

/-- R107: every byte is the entry of the inverse of its affine transform undone. -/
theorem sbox_surjective : Function.Surjective sbox := fun y =>
  ⟨ginv (unaffine y), by rw [sbox_eq_affine_ginv, ginv_ginv, affine_unaffine]⟩

/-- Settles O51: the table is one-to-one and onto; the sample entries by evaluation. -/
theorem sboxIsPermutation : Obligations.SboxIsPermutation := by
  refine ⟨fun a b => @sbox_injective a b, sbox_surjective, ?_⟩
  decide

/-- Settles O52: the inverse, and the affine transform by bit. -/
theorem sboxIsAffineInverse : Obligations.SboxIsAffineInverse := by
  refine ⟨ginv_zero, fun a ha => gmul_ginv ha, fun a i hi => ?_⟩
  rw [sbox_eq_affine_ginv, affine_getLsbD _ hi]

/-- Settles O53: the ten entries by evaluation. -/
theorem rconIsPowersOfX : Obligations.RconIsPowersOfX :=
  ⟨rfl, by decide, by decide⟩

end Sys2Proof.Machine
end

section
/-! PROOFS. The obligations of 41_key_schedule.md: the three word functions (R120 to R122), and EXPAND
(R123 to R125). The four words that the loop starts from and the words that it makes are one list, and
after a pass the list goes on as the list of the passes that are left: the recurrence follows by induction
on the passes. -/

namespace Sys2Proof.Machine

/-! ### The word functions (R120 to R122) -/

/-- R120: the low 24 bits, which are bytes 1 to 3, and byte 0 behind them. -/
theorem rotWord_eq_append (w : Word) :
    rotWord w = (w.extractLsb' 0 24 ++ w.extractLsb' 24 8 : BitVec (24 + 8)) := by
  have bytes12 : (wbyte w 1 ++ wbyte w 2 : BitVec (8 + 8)) = w.extractLsb' 8 16 :=
    BitVec.extractLsb'_append_extractLsb'_eq_extractLsb' rfl
  have bytes123 : (w.extractLsb' 8 16 ++ wbyte w 3 : BitVec (16 + 8)) = w.extractLsb' 0 24 :=
    BitVec.extractLsb'_append_extractLsb'_eq_extractLsb' rfl
  rw [← bytes123, ← bytes12]
  rfl

/-- R121 by byte. -/
@[simp] theorem wbyte_subWord (w : Word) (k : Fin 4) : wbyte (subWord w) k = sbox (wbyte w k) := by
  match k with
  | 0 => exact wbyte_word_zero ..
  | 1 => exact wbyte_word_one ..
  | 2 => exact wbyte_word_two ..
  | 3 => exact wbyte_word_three ..

/-- R122: the constant as a word, RCON[j] in byte 0 and zero in the other bytes. -/
theorem rconMix_eq_xor_word (w : Word) (j : Nat) : rconMix w j = w ^^^ word (rcon j) 0 0 0 := by
  have hword : word (rcon j) 0 0 0 = rcon j ++ (0 : BitVec 24) :=
    (BitVec.append_assoc (x₁ := rcon j ++ (0 : Byte))).trans BitVec.append_assoc
  rw [hword]
  rfl

/-- R122, the first byte. -/
@[simp] theorem wbyte_rconMix_zero (w : Word) (j : Nat) :
    wbyte (rconMix w j) 0 = wbyte w 0 ^^^ rcon j := by
  rw [rconMix_eq_xor_word, wbyte_xor, wbyte_word_zero]

/-- R122, the other bytes. -/
theorem wbyte_rconMix_of_ne_zero (w : Word) (j : Nat) {k : Fin 4} (hk : k ≠ 0) :
    wbyte (rconMix w j) k = wbyte w k := by
  have hzero : wbyte (word (rcon j) 0 0 0) k = 0 := by
    match k with
    | 0 => exact absurd rfl hk
    | 1 => exact wbyte_word_one ..
    | 2 => exact wbyte_word_two ..
    | 3 => exact wbyte_word_three ..
  rw [rconMix_eq_xor_word, wbyte_xor, hzero]
  exact BitVec.xor_zero

/-- Settles O11: each function by bytes; the rules' examples by evaluation. -/
theorem scheduleWordFunctions : Obligations.ScheduleWordFunctions :=
  ⟨rotWord_eq_append, wbyte_subWord,
    fun w j => ⟨wbyte_rconMix_zero w j, fun _ => wbyte_rconMix_of_ne_zero w j⟩, rfl, rfl, rfl⟩

/-! ### The recurrence (R123) -/

/-- R123: the four words before the loop and the `fuel` words it makes. -/
def scheduleFrom (fuel i : Nat) (a b c d : Word) : List Word :=
  a :: b :: c :: d :: expandFrom fuel i a b c d

@[simp] theorem scheduleFrom_length (fuel i : Nat) (a b c d : Word) :
    (scheduleFrom fuel i a b c d).length = fuel + 4 := by
  simp [scheduleFrom, expandFrom_length]

/-- R123, one pass: behind `a` stands the list of the passes that are left. -/
theorem scheduleFrom_succ (fuel i : Nat) (a b c d : Word) :
    scheduleFrom (fuel + 1) i a b c d =
      a :: scheduleFrom fuel (i + 1) b c d (a ^^^ scheduleTemp i d) := rfl

/-- R123: the word made by pass `k` is the word four places back XOR `T` of the word before. -/
theorem scheduleFrom_getElem_add_four {fuel i k : Nat} {a b c d : Word} (hk : k < fuel) :
    (scheduleFrom fuel i a b c d)[k + 4]'(by simp; omega) =
      (scheduleFrom fuel i a b c d)[k]'(by simp; omega) ^^^
        scheduleTemp (k + i) ((scheduleFrom fuel i a b c d)[k + 3]'(by simp; omega)) := by
  induction fuel generalizing i k a b c d with
  | zero => omega
  | succ fuel ih =>
    cases k with
    | zero =>
      rw [Nat.zero_add i]
      rfl
    | succ k =>
      have hpass : k + 1 + i = k + (i + 1) := by omega
      simp only [scheduleFrom_succ, List.getElem_cons_succ, hpass]
      exact ih (by omega)

/-- R123: word `i` of the expansion, whose list is the key and the 40 words made from it. -/
theorem expand_recurrence (k : Block) {i : Nat} (h4 : 4 ≤ i) (hi : i < 44) :
    (expand k)[i] = (expand k)[i - 4] ^^^ scheduleTemp i (expand k)[i - 1] := by
  obtain ⟨j, rfl⟩ := Nat.exists_eq_add_of_le' h4
  exact scheduleFrom_getElem_add_four (show j < 40 by omega)

/-- Settles O10: EXPAND loads the expansion of KEY and is finished; the expansion begins with KEY and
follows the recurrence. -/
theorem expandFollowsRecurrence : Obligations.ExpandFollowsRecurrence := fun s =>
  ⟨expand s.key, rfl, rfl, rfl, rfl, rfl, fun _ h4 hi => expand_recurrence s.key h4 hi⟩

end Sys2Proof.Machine
end

section
/-! PROOFS. The round transforms of 42_round_transforms.md as functions: ShiftRows by cell, MixColumns by
column, and the inverse of each (R148). A column is a polynomial with four byte coefficients, and MixColumns
multiplies it by a fixed one modulo `y^4 + 1`: since that product is associative, MixColumns is undone by
multiplication by the column whose product with the fixed one is 1. -/

namespace Sys2Proof.Machine

/-! ### Columns of a block (R14, R24) -/

/-- R14, R24: the cell at row `r` and column `c` is byte `r` of register `c`. -/
theorem cell_eq_wbyte_reg (b : Block) (r c : Fin 4) : b.cell r c = wbyte (b.reg c) r := by
  have hreg : (⟨(4 * c.val + r.val) / 4, by omega⟩ : Fin 4) = c := Fin.ext (by dsimp only; omega)
  have hbyte : (⟨(4 * c.val + r.val) % 4, by omega⟩ : Fin 4) = r := Fin.ext (by dsimp only; omega)
  simp only [Block.cell, Block.byte, hreg, hbyte]

/-- R14: a block is its sixteen cells. -/
theorem block_ext_cells {a b : Block} (h : ∀ r c, a.cell r c = b.cell r c) : a = b := by
  refine block_ext_bytes fun k => ?_
  have hk : (⟨4 * (k.val / 4) + k.val % 4, by omega⟩ : Fin 16) = k := Fin.ext (by dsimp only; omega)
  have := h ⟨k.val % 4, by omega⟩ ⟨k.val / 4, by omega⟩
  simpa only [Block.cell, hk] using this

/-! ### SubBytes (R140) and AddRoundKey (R146) -/

/-- R107, R140: the S-box is one-to-one, so SubBytes is. -/
theorem subBytes_injective : Function.Injective subBytes := by
  intro a b h
  refine block_ext_bytes fun k => sbox_injective ?_
  rw [← subBytes_byte, h, subBytes_byte]

/-- R148: adding a round key twice adds nothing. -/
@[simp] theorem addRoundKey_addRoundKey (s k : Block) : addRoundKey (addRoundKey s k) k = s :=
  block_ext_bytes fun j => by simp

/-- R148: AddRoundKey is one-to-one, being its own inverse. -/
theorem addRoundKey_injective (k : Block) : Function.Injective (addRoundKey · k) :=
  Function.Involutive.injective (f := (addRoundKey · k)) fun s => addRoundKey_addRoundKey s k

/-! ### ShiftRows (R142) -/

/-- R142 by byte. -/
@[simp] theorem shiftRows_byte (s : Block) (k : Fin 16) :
    (shiftRows s).byte k = s.byte ⟨4 * ((k.val / 4 + k.val % 4) % 4) + k.val % 4, by omega⟩ :=
  byte_ofBytes _ k

/-- R142 by cell: row `r` is rotated left by `r` places. -/
@[simp] theorem shiftRows_cell (s : Block) (r c : Fin 4) : (shiftRows s).cell r c = s.cell r (c + r) := by
  simp only [Block.cell, shiftRows_byte, Fin.val_add]
  congr 2
  omega

/-- R148: four rotations by `r` places bring row `r` back. -/
theorem shiftRows_four_times (b : Block) : shiftRows (shiftRows (shiftRows (shiftRows b))) = b := by
  have hback : ∀ r c : Fin 4, c + r + r + r + r = c := by decide
  refine block_ext_cells fun r c => ?_
  simp only [shiftRows_cell, hback]

/-- R148: ShiftRows is one-to-one, three more undoing it. -/
theorem shiftRows_injective : Function.Injective shiftRows :=
  Function.LeftInverse.injective (g := fun b => shiftRows (shiftRows (shiftRows b))) shiftRows_four_times

/-! ### MixColumns (R144) -/

/-- R144 by column. -/
@[simp] theorem mixColumns_reg (s : Block) (c : Fin 4) : (mixColumns s).reg c = mixColumn (s.reg c) := by
  match c with
  | 0 | 1 | 2 | 3 => rfl

/-- R144: the product of two columns as polynomials modulo `y^4 + 1`, byte `i` of a column being the
coefficient of `y^i`. -/
def columnProduct (m w : Word) : Word :=
  word
    (gmul (wbyte m 0) (wbyte w 0) ^^^ gmul (wbyte m 3) (wbyte w 1) ^^^ gmul (wbyte m 2) (wbyte w 2) ^^^
      gmul (wbyte m 1) (wbyte w 3))
    (gmul (wbyte m 1) (wbyte w 0) ^^^ gmul (wbyte m 0) (wbyte w 1) ^^^ gmul (wbyte m 3) (wbyte w 2) ^^^
      gmul (wbyte m 2) (wbyte w 3))
    (gmul (wbyte m 2) (wbyte w 0) ^^^ gmul (wbyte m 1) (wbyte w 1) ^^^ gmul (wbyte m 0) (wbyte w 2) ^^^
      gmul (wbyte m 3) (wbyte w 3))
    (gmul (wbyte m 3) (wbyte w 0) ^^^ gmul (wbyte m 2) (wbyte w 1) ^^^ gmul (wbyte m 1) (wbyte w 2) ^^^
      gmul (wbyte m 0) (wbyte w 3))

/-- R101, R103: multiplied out, both triple products have the same sixteen terms in each byte. -/
theorem columnProduct_assoc (m n w : Word) :
    columnProduct (columnProduct m n) w = columnProduct m (columnProduct n w) := by
  simp only [columnProduct, wbyte_word_zero, wbyte_word_one, wbyte_word_two, wbyte_word_three,
    gmul_xor_left, gmul_xor_right, gmul_assoc]
  congr 1 <;> ac_rfl

/-- R103: the constant polynomial 1 is neutral. -/
theorem columnProduct_one_left (w : Word) : columnProduct (word 1 0 0 0) w = w := by
  simp only [columnProduct, wbyte_word_zero, wbyte_word_one, wbyte_word_two, wbyte_word_three,
    gmul_one_left, gmul_zero_left]
  simpa using word_wbytes w

/-- R144: the matrix of MixColumns is circulant, so it multiplies by the polynomial of its first column. -/
theorem mixColumn_eq_columnProduct (w : Word) : mixColumn w = columnProduct (word 2 1 1 3) w := by
  simp only [mixColumn, columnProduct, gadd, wbyte_word_zero, wbyte_word_one, wbyte_word_two,
    wbyte_word_three, gmul_one_left]

/-- R148: the inverse matrix is circulant too. -/
theorem invMixColumn_eq_columnProduct (w : Word) :
    invMixColumn w = columnProduct (word 14 9 13 11) w := by
  simp only [invMixColumn, columnProduct, wbyte_word_zero, wbyte_word_one, wbyte_word_two,
    wbyte_word_three]

/-- R148: a column whose product with another is 1 undoes the multiplication by it. -/
theorem columnProduct_cancel {m n : Word} (h : columnProduct m n = word 1 0 0 0) (w : Word) :
    columnProduct m (columnProduct n w) = w := by
  rw [← columnProduct_assoc, h, columnProduct_one_left]

/-- R148: the inverse matrix undoes MixColumns. -/
theorem invMixColumn_mixColumn (w : Word) : invMixColumn (mixColumn w) = w := by
  rw [mixColumn_eq_columnProduct, invMixColumn_eq_columnProduct]
  exact columnProduct_cancel (by decide) w

/-- R148: MixColumns undoes the inverse matrix. -/
theorem mixColumn_invMixColumn (w : Word) : mixColumn (invMixColumn w) = w := by
  rw [mixColumn_eq_columnProduct, invMixColumn_eq_columnProduct]
  exact columnProduct_cancel (by decide) w

/-- R148: MixColumns is one-to-one, its columns being so. -/
theorem mixColumns_injective : Function.Injective mixColumns := by
  intro a b h
  refine block_ext_cells fun r c => ?_
  have hcol : mixColumn (a.reg c) = mixColumn (b.reg c) := by rw [← mixColumns_reg, h, mixColumns_reg]
  have hreg : a.reg c = b.reg c := Function.LeftInverse.injective invMixColumn_mixColumn hcol
  rw [cell_eq_wbyte_reg, hreg, cell_eq_wbyte_reg]

/-! ### The cipher (R171) -/

/-- R148, R171: a main round is one-to-one. -/
theorem mainRound_injective (w : Vector Word 44) (r : Fin 11) :
    Function.Injective (mainRound w · r) :=
  (addRoundKey_injective _).comp
    (mixColumns_injective.comp (shiftRows_injective.comp subBytes_injective))

/-- R148, R171: main rounds in a row are one-to-one. -/
theorem foldl_mainRound_injective (w : Vector Word 44) (rs : List (Fin 11)) :
    Function.Injective (rs.foldl (mainRound w)) := by
  induction rs with
  | nil => exact Function.injective_id
  | cons r rs ih => exact ih.comp (mainRound_injective w r)

/-- R148, R171: the cipher under a fixed schedule is one-to-one. -/
theorem cipher_injective (w : Vector Word 44) : Function.Injective (cipher · w) := by
  intro a b h
  simp only [cipher] at h
  have hmixed := subBytes_injective (shiftRows_injective (addRoundKey_injective _ h))
  exact addRoundKey_injective _ (foldl_mainRound_injective w _ hmixed)

end Sys2Proof.Machine
end

section
/-! PROOFS. The obligations of 42_round_transforms.md: what SUBBYTES, SHIFTROWS, MIXCOLUMNS and ADDRK do,
and that each can be undone, so that ENCRYPT loses nothing (R140 to R148). -/

namespace Sys2Proof.Machine

/-- Settles O12: SubBytes by byte. -/
theorem subbytesReplacesEveryByte : Obligations.SubbytesReplacesEveryByte := fun s =>
  ⟨subBytes s.st, rfl, subBytes_byte s.st⟩

/-- Settles O13: ShiftRows by cell and by byte; the rule's list is the sixteen source bytes. -/
theorem shiftrowsRotatesRows : Obligations.ShiftrowsRotatesRows := by
  refine fun s => ⟨shiftRows s.st, rfl, shiftRows_cell s.st, ?_⟩
  have hsource : (List.finRange 16).map
      (fun k : Fin 16 => (⟨4 * ((k.val / 4 + k.val % 4) % 4) + k.val % 4, by omega⟩ : Fin 16)) =
      [0, 5, 10, 15, 4, 9, 14, 3, 8, 13, 2, 7, 12, 1, 6, 11] := by decide
  rw [← hsource, List.map_map]
  exact List.map_congr_left fun k _ => shiftRows_byte s.st k

/-- Settles O14: each column's four bytes are the matrix's four rows. -/
theorem mixcolumnsMultipliesColumns : Obligations.MixcolumnsMultipliesColumns := by
  refine fun s => ⟨mixColumns s.st, rfl, fun c => ?_⟩
  simp only [cell_eq_wbyte_reg, mixColumns_reg]
  exact ⟨wbyte_word_zero .., wbyte_word_one .., wbyte_word_two .., wbyte_word_three ..⟩

/-- R147: ADDRK with a legal operand and a valid schedule. -/
theorem exec_addrk_of_valid {s : State} {n : BitVec 4} {r : Fin 11} (hr : roundIndex n = some r)
    (hk : s.keyValid = true) :
    exec (.addrk n) s = .next (finish { s with st := addRoundKey s.st (roundKey s.rk r) }) := by
  simp only [exec, execAddrk, hr, hk, if_true]

/-- R147: what such an ADDRK gives the next one to work on. -/
theorem exec_addrk_effect {s t : State} {n : BitVec 4} {r : Fin 11} (hr : roundIndex n = some r)
    (hk : s.keyValid = true) (h : exec (.addrk n) s = .next t) :
    t.st = addRoundKey s.st (roundKey s.rk r) ∧ t.rk = s.rk ∧ t.keyValid = true := by
  cases (exec_addrk_of_valid hr hk).symm.trans h
  exact ⟨rfl, rfl, hk⟩

/-- Settles O15: AddRoundKey by byte. -/
theorem addrkXorsRoundKey : Obligations.AddrkXorsRoundKey := by
  intro s n r hn hk
  have hr : roundIndex n = some r := by simp [roundIndex, hn]
  refine ⟨_, exec_addrk_of_valid hr hk, fun k => ?_⟩
  rw [addRoundKey_byte, roundKey_byte]

/-- Settles O54: four rotations, as functions and as commands; the second ADDRK finds the schedule and the
round key of the first. -/
theorem shiftRowsAndAddRoundKeyUndo : Obligations.ShiftRowsAndAddRoundKeyUndo := by
  refine ⟨shiftRows_four_times, ?_, ?_⟩
  · rintro s _ _ _ _ ⟨⟩ ⟨⟩ ⟨⟩ ⟨⟩
    exact shiftRows_four_times s.st
  · intro s s₁ s₂ n hn hk h₁ h₂
    obtain ⟨r, hr⟩ := roundIndex_of_le hn
    obtain ⟨hst₁, hrk₁, hk₁⟩ := exec_addrk_effect hr hk h₁
    obtain ⟨hst₂, -, -⟩ := exec_addrk_effect hr hk₁ h₂
    rw [hst₂, hrk₁, hst₁, addRoundKey_addRoundKey]

/-- Settles O55: the matrices multiply by two columns whose product, either way round, is 1. -/
theorem mixColumnHasInverse : Obligations.MixColumnHasInverse := fun w =>
  ⟨invMixColumn_mixColumn w, mixColumn_invMixColumn w⟩

/-- Settles O57: both ciphertexts are the cipher under the expansion of the one key. -/
theorem encryptIsInjective : Obligations.EncryptIsInjective := by
  rintro s t _ _ hkey ⟨⟩ ⟨⟩ hst
  change cipher s.st (expand s.key) = cipher t.st (expand t.key) at hst
  rw [← hkey] at hst
  exact cipher_injective (expand s.key) hst

end Sys2Proof.Machine
end

section
/-! PROOFS. The round sequence of 43_sequencer.md as a table of phases: the transform of each phase (R170),
and the cipher as the forty transforms in order (R171). The forty phases are the whitening, four phases for
each of the nine main rounds, and the three of the final round. -/

namespace Sys2Proof.Machine

section
variable (w : Vector Word 44) {p : Fin 41}

/-! ### The phase table (R170) -/

/-- R170: the last phase of each round, and phase 40, add the round's key. -/
theorem transform_addRoundKey (h : p.val % 4 = 1 ∨ p.val = 40) (b : Block) :
    transform w p b = addRoundKey b (roundKey w ⟨p.val / 4, by omega⟩) := by
  have hlabel : label p = (⟨p.val / 4, by omega⟩, .addRoundKey) := by revert p; decide
  simp only [transform, hlabel]

/-- R170: the first phase of each round from round 1 on. -/
theorem transform_subBytes (h : p.val % 4 = 2) (b : Block) : transform w p b = subBytes b := by
  have hkind : (label p).2 = .subBytes := by revert p; decide
  simp only [transform, hkind]

/-- R170: the second phase of each round from round 1 on. -/
theorem transform_shiftRows (h : p.val % 4 = 3) (b : Block) : transform w p b = shiftRows b := by
  have hkind : (label p).2 = .shiftRows := by revert p; decide
  simp only [transform, hkind]

/-- R170: the third phase of each main round. -/
theorem transform_mixColumns (h : p.val % 4 = 0) (h0 : p.val ≠ 0) (h40 : p.val ≠ 40) (b : Block) :
    transform w p b = mixColumns b := by
  have hkind : (label p).2 = .mixColumns := by revert p; decide
  simp only [transform, hkind]

/-! ### The cipher (R171) -/

/-- The transforms of the phases `ps` in order. -/
def applyPhases (ps : List (Fin 41)) (b : Block) : Block := ps.foldl (fun b p => transform w p b) b

@[simp] theorem applyPhases_cons (ps : List (Fin 41)) (b : Block) :
    applyPhases w (p :: ps) b = applyPhases w ps (transform w p b) := rfl

end

/-- R171: the nine main rounds, counted from 0, by their numbers. -/
def mainRoundNumber (k : Fin 9) : Fin 11 := ⟨k.val + 1, by omega⟩

/-- R170: the four phases of a main round. -/
def mainRoundPhases (k : Fin 9) : List (Fin 41) :=
  [⟨4 * k.val + 2, by omega⟩, ⟨4 * k.val + 3, by omega⟩, ⟨4 * k.val + 4, by omega⟩,
    ⟨4 * k.val + 5, by omega⟩]

/-- R170, R171: a main round is the transforms of its four phases. -/
theorem applyPhases_mainRoundPhases (w : Vector Word 44) (k : Fin 9) (b : Block) :
    applyPhases w (mainRoundPhases k) b = mainRound w b (mainRoundNumber k) := by
  have hkey : (⟨(4 * k.val + 5) / 4, by omega⟩ : Fin 11) = mainRoundNumber k :=
    Fin.ext (by dsimp only [mainRoundNumber]; omega)
  simp only [mainRoundPhases, applyPhases_cons]
  rw [transform_addRoundKey w (.inl (by dsimp only; omega)),
    transform_mixColumns w (by dsimp only; omega) (by dsimp only; omega) (by dsimp only; omega),
    transform_shiftRows w (by dsimp only; omega), transform_subBytes w (by dsimp only; omega), hkey]
  rfl

/-- R170: the forty phases, round by round. -/
theorem phases_by_round : phases = [1] ++ (List.finRange 9).flatMap mainRoundPhases ++ [38, 39, 40] := by
  decide

/-- R171: the cipher is the transforms of the forty phases. -/
theorem cipher_eq_applyPhases (b : Block) (w : Vector Word 44) : cipher b w = applyPhases w phases b := by
  have hrounds : ([1, 2, 3, 4, 5, 6, 7, 8, 9] : List (Fin 11)) =
      (List.finRange 9).map mainRoundNumber := by decide
  simp only [cipher, hrounds, List.foldl_map, ← applyPhases_mainRoundPhases]
  simp only [applyPhases, phases_by_round, List.foldl_append, List.foldl_flatMap]
  rfl

/-- Settles O56: whitening, main rounds and final round are the phases round by round. -/
theorem cipherIsFortyTransforms : Obligations.CipherIsFortyTransforms := cipher_eq_applyPhases

end Sys2Proof.Machine
end

section
/-! PROOFS. The obligations of 43_sequencer.md about the commands ENCRYPT, TRACE_START and STEP, and that
the forty STEPs of a trace do what ENCRYPT does (R173 to R176). Between two STEPs of a trace nothing but
PHASE, STATE and the happenings still to come can differ, so a trace is followed by these three alone. -/

namespace Sys2Proof.Machine

/-! ### The commands -/

/-- R175: STEP with a valid schedule, where a next phase is left. -/
theorem exec_step_of_valid {s : State} {p : Fin 41} (hk : s.keyValid = true)
    (hp : p.val = s.phase.val + 1) :
    exec .step s = .next (finish { s with st := transform s.rk p s.st, phase := p }) := by
  obtain ⟨_, hlt⟩ := p
  subst hp
  simp only [exec, execStep, hk, hlt, if_true, dif_pos]

/-- Settles O18: the four clauses are the four kinds of transform of the phase table. -/
theorem stepAppliesNextTransform : Obligations.StepAppliesNextTransform := fun s p hk hp =>
  ⟨transform s.rk p s.st, exec_step_of_valid hk hp, fun h => transform_addRoundKey s.rk h s.st,
    fun h => transform_subBytes s.rk h s.st, fun h => transform_shiftRows s.rk h s.st,
    fun h h40 => transform_mixColumns s.rk h (by omega) h40 s.st⟩

/-- R173: ENCRYPT as one record. -/
theorem exec_encrypt (s : State) :
    exec .encrypt s = .next { s with
      rk := expand s.key, keyValid := true, st := cipher s.st (expand s.key), phase := 40,
      pending := none, done := true } := rfl

/-- Settles O16: the cipher under the new schedule is its forty transforms. -/
theorem encryptAppliesFortyTransforms : Obligations.EncryptAppliesFortyTransforms := fun s => by
  rw [exec_encrypt, cipherIsFortyTransforms]

/-- Settles O17: TRACE_START's meaning, as one record. -/
theorem traceStartExpandsAndRewinds : Obligations.TraceStartExpandsAndRewinds := fun _ => rfl

/-- 95_test_vectors.md L1-1: the schedule of the known key. -/
def knownSchedule : Vector Word 44 := expand ⟨0x00010203, 0x04050607, 0x08090a0b, 0x0c0d0e0f⟩

/-- 95_test_vectors.md L2-TRACE: row 0 is the plaintext of L1-1, rows 9 to 33 end every second main round,
and the last row, 40, is the ciphertext. -/
def knownRow : Nat → Block
  | 0 => ⟨0x00112233, 0x44556677, 0x8899aabb, 0xccddeeff⟩
  | 9 => ⟨0x4915598f, 0x55e5d7a0, 0xdaca94fa, 0x1f0a63f7⟩
  | 17 => ⟨0x24724023, 0x6966b3fa, 0x6ed27532, 0x88425b6c⟩
  | 25 => ⟨0xc62fe109, 0xf75eedc3, 0xcc79395d, 0x84f9cf5d⟩
  | 33 => ⟨0xfde3bad2, 0x05e5d0d7, 0x3547964e, 0xf1fe37f1⟩
  | _ => ⟨0x69c4e0d8, 0x6a7b0430, 0xd8cdb780, 0x70b4c55a⟩

/-- 95_test_vectors.md L1-1, evaluated from row to row of L2-TRACE, since the whole cipher is too deep an
evaluation for one `decide`. -/
theorem cipher_known_answer : cipher (knownRow 0) knownSchedule = knownRow 40 := by
  have row9 : mainRound knownSchedule (mainRound knownSchedule
      (addRoundKey (knownRow 0) (roundKey knownSchedule 0)) 1) 2 = knownRow 9 := by decide
  have row17 : mainRound knownSchedule (mainRound knownSchedule (knownRow 9) 3) 4 = knownRow 17 := by
    decide
  have row25 : mainRound knownSchedule (mainRound knownSchedule (knownRow 17) 5) 6 = knownRow 25 := by
    decide
  have row33 : mainRound knownSchedule (mainRound knownSchedule (knownRow 25) 7) 8 = knownRow 33 := by
    decide
  have row40 : addRoundKey (shiftRows (subBytes (mainRound knownSchedule (knownRow 33) 9)))
      (roundKey knownSchedule 10) = knownRow 40 := by decide
  simp only [cipher, List.foldl_cons, List.foldl_nil, row9, row17, row25, row33, row40]

/-- Settles O59: ENCRYPT leaves the cipher of STATE under the expansion of KEY, and PHASE at 40. -/
theorem knownAnswerEncryption : Obligations.KnownAnswerEncryption := by
  intro s hkey hst
  have hphase : phaseValue 40 = 0x0000CA28 := by decide
  refine ⟨_, exec_encrypt s, ?_, hphase, rfl⟩
  dsimp only
  rw [hkey, hst]
  exact cipher_known_answer

/-! ### The trace (R176) -/

/-- R176: the commands `is`, each issued and completed with nothing in between. -/
def commandEvents (is : List Instr) : List Event := is.flatMap fun i => [cmd i, .complete]

/-- R176: `s` during a trace, between two commands, with the trace at phase `p` and `b` in STATE. -/
def State.traced (s : State) (p : Fin 41) (b : Block) (es : List Event) : State :=
  { s with
    rk := expand s.key, keyValid := true, phase := p, st := b, pending := none, done := true
    events := es }

/-- R170: the phases after `p`. -/
def phasesAfter (p : Fin 41) : List (Fin 41) := (List.finRange 41).drop (p.val + 1)

theorem phasesAfter_of_succ {p q : Fin 41} (h : q.val = p.val + 1) :
    phasesAfter p = q :: phasesAfter q := by
  rw [phasesAfter, ← h, List.drop_eq_getElem_cons (by simp)]
  simp [phasesAfter]

/-- A run of `m + k` steps is a run of `m` and, from where it ends, a run of `k`. -/
theorem run_add {m : Nat} (k : Nat) {s t : State} (h : Host.Core.run core m s = .next t) :
    Host.Core.run core (m + k) s = Host.Core.run core k t := by
  induction m generalizing s with
  | zero =>
    cases h
    rw [Nat.zero_add]
  | succ m ih =>
    obtain ⟨u, hu⟩ := everyStateSteps s
    rw [run_succ m hu] at h
    rw [Nat.succ_add, run_succ _ hu, ih h]

/-- R175, R176: one STEP of a trace. -/
theorem run_step_traced (s : State) {p q : Fin 41} (b : Block) (es : List Event)
    (h : q.val = p.val + 1) :
    Host.Core.run core 2 (s.traced p b (cmd .step :: .complete :: es)) =
      .next (s.traced q (transform (expand s.key) q b) es) := by
  have haccepted : Instr.step.stateError true p = none := stateError_step_eq_none.2 ⟨rfl, by omega⟩
  rw [issueThenCompleteRunsInstr _ es .step rfl rfl haccepted rfl, exec_step_of_valid rfl h]
  rfl

/-- R176: the STEPs from phase `p` to the end of a trace apply the transforms of the phases after `p`. -/
theorem run_steps_traced (s : State) (n : Nat) {p : Fin 41} (b : Block) (rest : List Event)
    (h : p.val + n = 40) :
    Host.Core.run core (2 * n) (s.traced p b (commandEvents (List.replicate n .step) ++ rest)) =
      .next (s.traced 40 (applyPhases (expand s.key) (phasesAfter p) b) rest) := by
  induction n generalizing p b with
  | zero =>
    obtain rfl : p = 40 := Fin.ext h
    rfl
  | succ n ih =>
    have hq : p.val + 1 < 41 := by omega
    rw [phasesAfter_of_succ (q := ⟨p.val + 1, hq⟩) rfl, applyPhases_cons, Nat.mul_succ, Nat.add_comm]
    exact (run_add _ (run_step_traced s b _ rfl)).trans (ih _ (by dsimp only; omega))

/-- Settles O58: after TRACE_START the trace is at phase 0 under the new schedule, and the phases after 0
are the forty of the cipher. -/
theorem traceEqualsEncrypt : Obligations.TraceEqualsEncrypt := by
  intro s rest hp
  have hstart := issueThenCompleteRunsInstr
    { s with events := commandEvents (.traceStart :: List.replicate 40 .step) ++ rest }
    (commandEvents (List.replicate 40 .step) ++ rest) .traceStart hp rfl rfl rfl
  have hencrypt := issueThenCompleteRunsInstr { s with events := cmd .encrypt :: .complete :: rest }
    rest .encrypt hp rfl rfl rfl
  rw [hencrypt, encryptAppliesFortyTransforms]
  exact (run_add 80 hstart).trans (run_steps_traced s 40 s.st rest rfl)

end Sys2Proof.Machine
end

section
/-! PROOFS. The obligations of 44_control.md: the commands NOP and CLEAR, and the CTRL and STATUS
writes. -/

namespace Sys2Proof.Machine

/-! ### NOP and CLEAR (R190, R191) -/

/-- Settles O9: NOP's meaning is `finish`, as one record. -/
theorem nopOnlyCompletes : Obligations.NopOnlyCompletes := fun _ => rfl

/-- Settles O19: CLEAR's meaning, as one record. -/
theorem clearZeroisesKeyAndState : Obligations.ClearZeroisesKeyAndState := fun _ => rfl

/-! ### The CTRL and STATUS writes (R192, R193) -/

/-- Settles O29: the offset names CTRL, and the line is computed from the state the write leaves. -/
theorem ctrlWriteSetsIrqEn : Obligations.CtrlWriteSetsIrqEn := by
  intro s rest v h
  refine ⟨writeCtrl v { s with events := rest }, ?_, rfl, rfl⟩
  rw [step_write h rfl, registerAt_ctrl rfl, Register.write]

/-- Settles O30: the offset names STATUS, and its write is that of `writeStatus_eq`. -/
theorem statusWriteClearsBits : Obligations.StatusWriteClearsBits := by
  intro s rest v h
  rw [step_write h rfl, registerAt_status rfl, Register.write, writeStatus_eq]

end Sys2Proof.Machine
end

section
/-! PROOFS. The obligation of 60_exceptions.md about the first error (R202): once ERR is set,
recording an error keeps ERR and ERRCODE, and so does every operation but the two that clear them. -/

namespace Sys2Proof.Machine

section
variable {s : State} (herr : s.err = true)
include herr

/-- R202: a later error does not overwrite the first. -/
theorem raiseError_keeps_first_error (e : ErrorCode) :
    (raiseError e s).err = true ∧ (raiseError e s).errcode = s.errcode :=
  ⟨raiseError_err e s, by rw [raiseError_errcode, if_pos herr]⟩

/-- R202, R203: nor does the error of a rejection. -/
theorem reject_keeps_first_error (e : ErrorCode) :
    (reject e s).err = true ∧ (reject e s).errcode = s.errcode :=
  raiseError_keeps_first_error herr e

/-- R53, R202: with ERR set, a read leaves ERR and ERRCODE, a bad access included. -/
theorem busRead_keeps_first_error (off : BitVec 8) (n : Nat) :
    (busRead off n s).err = true ∧ (busRead off n s).errcode = s.errcode := by
  rcases busRead_cases off n s with ⟨_, _, h⟩ | ⟨_, _, h⟩ | ⟨_, h⟩ <;> rw [h]
  · exact ⟨herr, rfl⟩
  · exact ⟨herr, rfl⟩
  · exact raiseError_keeps_first_error herr .busAccess

/-- R80, R202: with ERR set, a CMD write leaves ERR and ERRCODE, a busy or a rejected one included. -/
theorem issue_keeps_first_error (c : Word) :
    (issue c s).err = true ∧ (issue c s).errcode = s.errcode := by
  rcases issue_cases c s with ⟨_, h⟩ | ⟨_, _, h⟩ | ⟨_, e, _, h⟩ <;> rw [h]
  · exact raiseError_keeps_first_error herr .busy
  · exact ⟨herr, rfl⟩
  · exact reject_keeps_first_error herr e

/-- R28, R193, R202: with ERR set, a register write leaves ERR and ERRCODE, unless it is a STATUS write
with bit 3. -/
theorem write_keeps_first_error {r : Register} {v : Word}
    (hclear : r = .status → v.getLsbD 3 = false) :
    (r.write v s).err = true ∧ (r.write v s).errcode = s.errcode := by
  cases r with
  | key j =>
    rcases writeKey_cases j v s with ⟨_, h⟩ | ⟨_, h⟩ <;> rw [Register.write, h]
    · exact raiseError_keeps_first_error herr .busy
    · exact ⟨herr, rfl⟩
  | state j =>
    rcases writeState_cases j v s with ⟨_, h⟩ | ⟨_, h⟩ <;> rw [Register.write, h]
    · exact raiseError_keeps_first_error herr .busy
    · exact ⟨herr, rfl⟩
  | cmd => exact issue_keeps_first_error herr v
  | status =>
    rw [Register.write, writeStatus_err, writeStatus_errcode, hclear rfl, herr]
    exact ⟨rfl, rfl⟩
  | ctrl | phase | rk | reserved => exact ⟨herr, rfl⟩

end

/-- Settles O35: of all a step can do, only a reset and a STATUS write with bit 3 touch a recorded
error. -/
theorem firstErrorIsKept : Obligations.FirstErrorIsKept := by
  intro s t herr hs hreset hclear
  rcases step_cases hs with ⟨_, _, rfl⟩ | ⟨i, _, hx⟩ | ⟨_, e, _, _, _, rfl⟩ | ⟨hr, _⟩ |
    ⟨off, n, rest, _, rfl⟩ | ⟨off, v, rest, hw, _, rfl⟩ | ⟨_, _, _, rest, _, _, rfl⟩
  · exact ⟨herr, rfl⟩
  · obtain ⟨_, _, _, _, _, _, hkeep⟩ := exec_frame hx
    exact hkeep herr
  · exact reject_keeps_first_error (s := { s with events := s.events.tail }) herr e
  · exact absurd hr hreset
  · exact busRead_keeps_first_error (s := { s with events := rest }) herr off n
  · refine write_keeps_first_error (s := { s with events := rest }) herr fun hreg => ?_
    obtain rfl := off_of_registerAt_status hw.1 hreg
    exact hclear v hw
  · exact raiseError_keeps_first_error (s := { s with events := rest }) herr .busAccess

end Sys2Proof.Machine
end

section
/-! PROOFS. The obligations of 70_reset_and_hazards.md: what a reset leaves (R230, R232), and that a
pending command does not stay pending (R246). -/

namespace Sys2Proof.Machine

/-! ### Reset (R230, R232) -/

/-- Settles O37: the step is the reset, at the state less its happening. -/
theorem resetRestoresResetValues : Obligations.ResetRestoresResetValues :=
  fun _ _ h => step_cons h

/-- R232: a reset leaves nothing pending. -/
theorem step_of_resetNext {s : State} (h : resetNext s) : ∃ t, step s = .next t ∧ t.pending = none := by
  obtain ⟨rest, hev⟩ := h
  exact ⟨_, resetRestoresResetValues s rest hev, rfl⟩

/-! ### The core's turn (R81) -/

/-- R81, R203: with a command pending, the core's turn completes it, whatever its word. -/
theorem coreTurn_completes {s : State} {c : Word} (hp : s.pending = some c) :
    ∃ t, coreTurn s = .next t ∧ t.pending = none ∧ t.done = true := by
  rcases coreTurn_cases s with ⟨hidle, _⟩ | ⟨_, i, _, _, h⟩ | ⟨_, e, _, _, h⟩
  · rw [hp] at hidle
    cases hidle
  · obtain ⟨t, ht⟩ := exec_next i s
    obtain ⟨hpend, hdone, _⟩ := exec_frame ht
    exact ⟨t, h.trans ht, hpend, hdone⟩
  · exact ⟨_, h, rfl, rfl⟩

/-- R59, R81: the step in which the core takes its turn completes the pending command. -/
theorem step_completes_of_coreNext {s : State} {c : Word} (hn : coreNext s) (hp : s.pending = some c) :
    ∃ t, step s = .next t ∧ t.pending = none ∧ t.done = true := by
  rcases hn with hev | ⟨rest, hev⟩
  · rw [step_nil hev]
    exact coreTurn_completes hp
  · rw [step_cons hev]
    exact coreTurn_completes (s := { s with events := rest }) hp

/-! ### Transactions while a command is pending -/

/-- R59: a read leaves the list of happenings. -/
theorem busRead_events (off : BitVec 8) (n : Nat) (s : State) :
    (busRead off n s).events = s.events := by
  rcases busRead_cases off n s with ⟨_, _, h⟩ | ⟨_, _, h⟩ | ⟨_, h⟩ <;> simp [h]

/-- R59: a write leaves the list of happenings, a bad one included. -/
theorem busWrite_events (off : BitVec 8) (n : Nat) (v : Word) (s : State) :
    (busWrite off n v s).events = s.events := by
  rcases busWrite_cases off n v s with ⟨_, h⟩ | ⟨_, h⟩ <;> rw [h]
  · exact (write_bus_fields (registerAt off) v s).1
  · exact raiseError_events .busAccess s

/-- R59: the step of a transaction takes it off the list and leaves the rest. -/
theorem step_events_of_transactionNext {s t : State} (htr : transactionNext s) (h : step s = .next t) :
    t.events = s.events.tail := by
  rcases htr with ⟨off, n, rest, hev⟩ | ⟨off, n, v, rest, hev⟩ <;> rw [step_cons hev] at h <;>
    cases h <;> rw [hev]
  · exact busRead_events off n { s with events := rest }
  · exact busWrite_events off n v { s with events := rest }

/-- R59: the next step is the core's turn, a reset or a transaction. -/
theorem next_cases (s : State) : coreNext s ∨ resetNext s ∨ transactionNext s := by
  cases hev : s.events with
  | nil => exact .inl (.inl hev)
  | cons e rest =>
    cases e with
    | complete => exact .inl (.inr ⟨rest, hev⟩)
    | reset => exact .inr (.inl ⟨rest, hev⟩)
    | read off n => exact .inr (.inr (.inl ⟨off, n, rest, hev⟩))
    | write off n v => exact .inr (.inr (.inr ⟨off, n, v, rest, hev⟩))

/-! ### Progress (R246) -/

/-- R58, R246: the pending word stays until the core's turn or a listed reset comes, and one of the two
comes within the length of the list. -/
theorem pending_kept_to_core_or_reset {s : State} {c : Word} (hp : s.pending = some c) :
    ∃ k u, k ≤ s.events.length ∧ Host.Core.run core k s = .next u ∧ u.pending = some c ∧
      (coreNext u ∨ resetNext u ∧ .reset ∈ s.events) := by
  induction hev : s.events generalizing s with
  | nil => exact ⟨0, s, Nat.le_refl 0, rfl, hp, .inl (.inl hev)⟩
  | cons e rest ih =>
    rcases next_cases s with hcore | ⟨rest', hreset⟩ | htr
    · exact ⟨0, s, Nat.zero_le _, rfl, hp, .inl hcore⟩
    · exact ⟨0, s, Nat.zero_le _, rfl, hp, .inr ⟨⟨rest', hreset⟩, by simp [← hev, hreset]⟩⟩
    · obtain ⟨t, ht⟩ := everyStateSteps s
      obtain ⟨htp, _⟩ := pendingCommandIsFrozen s t c hp htr ht
      have hte : t.events = rest := by rw [step_events_of_transactionNext htr ht, hev, List.tail_cons]
      obtain ⟨k, u, hk, hrun, hup, hu⟩ := ih htp hte
      exact ⟨k + 1, u, Nat.succ_le_succ hk, (run_succ k ht).trans hrun, hup,
        hu.imp_right (And.imp_right (List.mem_cons_of_mem e))⟩

/-- R60: BUSY clears within one step more than the list is long. -/
theorem busy_clears (s : State) :
    ∃ k t, k ≤ s.events.length + 1 ∧ Host.Core.run core k s = .next t ∧ t.pending = none := by
  cases hp : s.pending with
  | none => exact ⟨0, s, Nat.zero_le _, rfl, hp⟩
  | some c =>
    obtain ⟨k, u, hk, hrun, hup, hu⟩ := pending_kept_to_core_or_reset hp
    have hclear : ∃ t, step u = .next t ∧ t.pending = none := by
      rcases hu with hcore | ⟨hreset, _⟩
      · obtain ⟨t, ht, htp, _⟩ := step_completes_of_coreNext hcore hup
        exact ⟨t, ht, htp⟩
      · exact step_of_resetNext hreset
    obtain ⟨t, ht, htp⟩ := hclear
    exact ⟨k + 1, t, Nat.succ_le_succ hk, (run_add 1 hrun).trans (run_succ 0 ht), htp⟩

/-- Settles O48: with no reset listed, what the pending word reaches is the core's turn
(`pending_kept_to_core_or_reset`), which completes it. -/
theorem pendingCommandCompletes : Obligations.PendingCommandCompletes := by
  refine ⟨busy_clears, fun s c hp hno => ?_⟩
  obtain ⟨k, u, hk, hrun, hup, hu⟩ := pending_kept_to_core_or_reset hp
  have hcore : coreNext u := hu.resolve_right fun h => hno h.2
  obtain ⟨t, ht, htp, hdone⟩ := step_completes_of_coreNext hcore hup
  exact ⟨k, u, t, hk, hrun, hcore, hup, ht, htp, hdone⟩

end Sys2Proof.Machine
end
